-- ==== Sys2Proof/Word.lean ====
section
/-! DEFINITION. The word types of the learnlc3 engine (spec/00_scope.md R10, R13; spec/10_state.md R40). -/

namespace Sys2Proof

/-- A machine word: 16 bits, "the universal unit of memory, registers, and instructions" (R10, R16). -/
abbrev Word := BitVec 16

/-- A character of the console or the keyboard: 8 bits (R40, R41). -/
abbrev Byte := BitVec 8

end Sys2Proof
end

