-- ==== Sys2Proof/Syntax.lean ====
section
/-! DEFINITION. The instructions: one constructor per row of spec/opcode_table.json. A row that names words of
another row (RET among JMP, GETC to HALT among TRAP) takes those words; WellFormed.lean says so. Bits the engine
ignores (spec/30_encoding.md R109) are no operand. -/

namespace Sys2Proof

/-- The general registers R0-R7 (spec/10_state.md R30, spec/00_scope.md R17). -/
inductive Reg where
  | r0 | r1 | r2 | r3 | r4 | r5 | r6 | r7
  deriving DecidableEq, Repr

/-- The instructions, with the operands of spec/30_encoding.md R105. Immediates and offsets are the encoded
fields; Operands.lean extends them. -/
inductive Instr where
  | addReg (dr sr1 sr2 : Reg)
  | addImm (dr sr1 : Reg) (imm5 : BitVec 5)
  | andReg (dr sr1 sr2 : Reg)
  | andImm (dr sr1 : Reg) (imm5 : BitVec 5)
  | notReg (dr sr : Reg)
  | br (n z p : Bool) (off9 : BitVec 9)
  | jmp (base : Reg)
  | ret
  | jsr (off11 : BitVec 11)
  | jsrr (base : Reg)
  | ld (dr : Reg) (off9 : BitVec 9)
  | ldi (dr : Reg) (off9 : BitVec 9)
  | ldr (dr base : Reg) (off6 : BitVec 6)
  | lea (dr : Reg) (off9 : BitVec 9)
  | st (sr : Reg) (off9 : BitVec 9)
  | sti (sr : Reg) (off9 : BitVec 9)
  | str (sr base : Reg) (off6 : BitVec 6)
  | rti
  | reserved
  /-- TRAP with a vector that names no service (R240): see WellFormed.lean. -/
  | trap (vect8 : BitVec 8)
  | getc
  | out
  | puts
  | inChar
  | putsp
  | halt
  deriving DecidableEq, Repr

end Sys2Proof
end

