-- ==== Sys2Proof/WellFormed.lean ====
section
/-! DEFINITION. Which terms of `Instr` are the decoding of some word. Every operand fits its field by its type;
what is left is that a word with a row of its own is written with that row's constructor. -/

namespace Sys2Proof

/-- The vectors that name a service: 0x20 to 0x25 (spec/43_trap.md R231). -/
def isServiceVector (v : BitVec 8) : Bool := decide (0x20 ≤ v.toNat ∧ v.toNat ≤ 0x25)

/-- Well-formed: JMP through R7 is written `ret` (spec/42_control.md R204), and a TRAP with a service vector is
written with its service's constructor (R231). -/
def Instr.wf : Instr → Bool
  | .jmp base => decide (base ≠ .r7)
  | .trap v => !isServiceVector v
  | .addReg _ _ _ | .addImm _ _ _ | .andReg _ _ _ | .andImm _ _ _ | .notReg _ _ | .br _ _ _ _ | .ret | .jsr _
  | .jsrr _ | .ld _ _ | .ldi _ _ | .ldr _ _ _ | .lea _ _ | .st _ _ | .sti _ _ | .str _ _ _ | .rti | .reserved
  | .getc | .out | .puts | .inChar | .putsp | .halt => true

/-- `Instr.wf` as a proposition. -/
abbrev Instr.WellFormed (i : Instr) : Prop := i.wf = true

end Sys2Proof
end

