-- ==== Sys2Proof/Decode.lean ====
section
/-! DEFINITION. Decoding a word, encoding an instruction, and the host's reading of an opcode-table word
(spec/30_encoding.md R102-R111). Every word has a meaning (R102), so the decoder refuses none. -/

namespace Sys2Proof

/-- The register a 3-bit field names; every value names one (R107). -/
def Reg.ofBits (b : BitVec 3) : Reg :=
  match b with
  | 0#3 => .r0
  | 1#3 => .r1
  | 2#3 => .r2
  | 3#3 => .r3
  | 4#3 => .r4
  | 5#3 => .r5
  | 6#3 => .r6
  | 7#3 => .r7

/-- The number of a register, as its field holds it (R107). -/
def Reg.toBits : Reg → BitVec 3
  | .r0 => 0#3
  | .r1 => 1#3
  | .r2 => 2#3
  | .r3 => 3#3
  | .r4 => 4#3
  | .r5 => 5#3
  | .r6 => 6#3
  | .r7 => 7#3

/-- `w[lo+len-1 : lo]`, in the bit numbering of spec/00_scope.md R12. -/
def bits (w : Word) (lo len : Nat) : BitVec len := w.extractLsb' lo len

/-- `w[k]` (R12). -/
def bit (w : Word) (k : Nat) : Bool := w.getLsbD k

/-- The register field whose low bit is bit `lo` (R105: DR, SR at 9; SR1, BaseR at 6; SR2 at 0). -/
def regField (w : Word) (lo : Nat) : Reg := Reg.ofBits (bits w lo 3)

/-- ADD's or AND's word: bit 5 tells the register from the immediate form (R104, R105). -/
def decodeOperate (w : Word) (reg : Reg → Reg → Reg → Instr) (imm : Reg → Reg → BitVec 5 → Instr) : Instr :=
  if bit w 5 then imm (regField w 9) (regField w 6) (bits w 0 5)
  else reg (regField w 9) (regField w 6) (regField w 0)

/-- JMP's word; RET where BaseR is R7 (R108, spec/42_control.md R204). -/
def decodeJump (base : Reg) : Instr := if base = .r7 then .ret else .jmp base

/-- TRAP's word: the vector selects the service (spec/43_trap.md R231). -/
def decodeTrap (v : BitVec 8) : Instr :=
  if v = 0x20#8 then .getc
  else if v = 0x21#8 then .out
  else if v = 0x22#8 then .puts
  else if v = 0x23#8 then .inChar
  else if v = 0x24#8 then .putsp
  else if v = 0x25#8 then .halt
  else .trap v

/-- The instruction a word holds: dispatch on bits 15:12 (R102, R108), ignoring the bits of R109. -/
def decode (w : Word) : Instr :=
  match bits w 12 4 with
  | 0x0#4 => .br (bit w 11) (bit w 10) (bit w 9) (bits w 0 9)
  | 0x1#4 => decodeOperate w .addReg .addImm
  | 0x2#4 => .ld (regField w 9) (bits w 0 9)
  | 0x3#4 => .st (regField w 9) (bits w 0 9)
  | 0x4#4 => if bit w 11 then .jsr (bits w 0 11) else .jsrr (regField w 6)
  | 0x5#4 => decodeOperate w .andReg .andImm
  | 0x6#4 => .ldr (regField w 9) (regField w 6) (bits w 0 6)
  | 0x7#4 => .str (regField w 9) (regField w 6) (bits w 0 6)
  | 0x8#4 => .rti
  | 0x9#4 => .notReg (regField w 9) (regField w 6)
  | 0xA#4 => .ldi (regField w 9) (bits w 0 9)
  | 0xB#4 => .sti (regField w 9) (bits w 0 9)
  | 0xC#4 => decodeJump (regField w 6)
  | 0xD#4 => .reserved
  | 0xE#4 => .lea (regField w 9) (bits w 0 9)
  | _ => decodeTrap (bits w 0 8)  -- 0xF, the one value left

/-- The canonical word of an instruction (R104: the bits the engine ignores as the assembler writes them). -/
def encode : Instr → Word
  | .addReg dr sr1 sr2 => 0x1#4 ++ dr.toBits ++ sr1.toBits ++ 0#1 ++ 0#2 ++ sr2.toBits
  | .addImm dr sr1 imm5 => 0x1#4 ++ dr.toBits ++ sr1.toBits ++ 1#1 ++ imm5
  | .andReg dr sr1 sr2 => 0x5#4 ++ dr.toBits ++ sr1.toBits ++ 0#1 ++ 0#2 ++ sr2.toBits
  | .andImm dr sr1 imm5 => 0x5#4 ++ dr.toBits ++ sr1.toBits ++ 1#1 ++ imm5
  | .notReg dr sr => 0x9#4 ++ dr.toBits ++ sr.toBits ++ 0x3F#6
  | .br n z p off9 => 0x0#4 ++ BitVec.ofBool n ++ BitVec.ofBool z ++ BitVec.ofBool p ++ off9
  | .jmp base => 0xC#4 ++ 0#3 ++ base.toBits ++ 0#6
  | .ret => 0xC#4 ++ 0#3 ++ Reg.r7.toBits ++ 0#6
  | .jsr off11 => 0x4#4 ++ 1#1 ++ off11
  | .jsrr base => 0x4#4 ++ 0#1 ++ 0#2 ++ base.toBits ++ 0#6
  | .ld dr off9 => 0x2#4 ++ dr.toBits ++ off9
  | .ldi dr off9 => 0xA#4 ++ dr.toBits ++ off9
  | .ldr dr base off6 => 0x6#4 ++ dr.toBits ++ base.toBits ++ off6
  | .lea dr off9 => 0xE#4 ++ dr.toBits ++ off9
  | .st sr off9 => 0x3#4 ++ sr.toBits ++ off9
  | .sti sr off9 => 0xB#4 ++ sr.toBits ++ off9
  | .str sr base off6 => 0x7#4 ++ sr.toBits ++ base.toBits ++ off6
  | .rti => 0x8#4 ++ 0#12
  | .reserved => 0xD#4 ++ 0#12
  | .trap v => 0xF#4 ++ 0#4 ++ v
  | .getc => 0xF#4 ++ 0#4 ++ 0x20#8
  | .out => 0xF#4 ++ 0#4 ++ 0x21#8
  | .puts => 0xF#4 ++ 0#4 ++ 0x22#8
  | .inChar => 0xF#4 ++ 0#4 ++ 0x23#8
  | .putsp => 0xF#4 ++ 0#4 ++ 0x24#8
  | .halt => 0xF#4 ++ 0#4 ++ 0x25#8

/-- The bits of an opcode-table row's word, as a memory word: an instruction is one 16-bit word (R103), and the
bits above `nbits` are 0. `none` where the number does not fit `nbits` bits of one word. -/
def tableWord (nbits w : Nat) : Option Word :=
  if nbits ≤ 16 ∧ w < 2 ^ nbits then some (BitVec.ofNat 16 w) else none

/-- The instruction the decoder reads from an opcode-table word (the host's interface). -/
def decodeTableWord (nbits w : Nat) : Option Instr := (tableWord nbits w).map decode

end Sys2Proof
end

