-- ==== Sys2Proof/Machine/State.lean ====
section
/-! DEFINITION. The state of the engine (spec/10_state.md, spec/20_memory.md), the reasons a step can stop, and the
state right after reset (R46, R290, R293). -/

namespace Sys2Proof.Machine

/-- The register file: eight 16-bit registers, none hard-wired, none an alias (R30). -/
structure RegFile where
  r0 : Word
  r1 : Word
  r2 : Word
  r3 : Word
  r4 : Word
  r5 : Word
  r6 : Word
  r7 : Word
  deriving DecidableEq, Repr

/-- The condition flags: three booleans (R36). That exactly one is true is an invariant (Safety.lean). -/
structure Flags where
  n : Bool
  z : Bool
  p : Bool
  deriving DecidableEq, Repr

/-- The run state (R39). -/
inductive RunState where
  | ready
  | halted
  | waitingForInput
  deriving DecidableEq, Repr

/-- The execution statistics: natural numbers with no width (R43). -/
structure Stats where
  instructions : Nat
  memReads : Nat
  memWrites : Nat
  branchesTaken : Nat
  branchesNotTaken : Nat
  deriving DecidableEq, Repr

/-- The memory array (R60): pairs of a word address and the word it holds, addresses strictly rising, no word
0x0000; an address that is not listed holds 0x0000, as reset leaves it (R46). The cell is the addressable unit of
this hardware, the word: no byte has an address (R67, R78; notes/assumptions/3.md). -/
abbrev Memory := List (Nat × Word)

/-- Everything the spec gives the engine (10_state.md). -/
structure State where
  /-- R0-R7 (R30) -/
  regs : RegFile
  /-- the program counter (R34) -/
  pc : Word
  /-- N, Z, P (R36) -/
  flags : Flags
  /-- the run state (R39) -/
  runState : RunState
  /-- the console output stream, oldest character first (R40) -/
  output : List Byte
  /-- the input buffer, its front first (R41) -/
  buffer : List Byte
  /-- the supplier (R41): `none` where none is installed; else the answers its next calls give, one for each call.
  A call past the list's end gets `Config.supplierAnswer` (notes/assumptions/2.md). -/
  supplier : Option (List (Option Byte))
  /-- THE MODEL'S OWN: how often a supplier has been called, so that each free answer is a new one
  (notes/assumptions/2.md) -/
  supplierCalls : Nat
  /-- the five execution statistics (R43) -/
  stats : Stats
  /-- the raw memory array, the words at device addresses included (R60, R63) -/
  mem : Memory
  deriving DecidableEq, Repr

/-- The faults of a step: none. The hardware raises no exception and every address is legal
(spec/60_exceptions.md R260), so no step faults. -/
inductive Fault where
  deriving DecidableEq, Repr

/-- The reasons the model gives a step no meaning (R262). After a refusal there is no further step. -/
inductive Refusal where
  /-- An instruction without a meaning in this model, by its mnemonic. Raised by no arm of `exec`; safe. -/
  | notModelled (mnemonic : String)
  /-- "PUTS: no terminator in the whole address space" (R235, R262, decision D30). Raised by PUTS; safe. -/
  | putsNoTerminator
  /-- "PUTSP: no terminator in the whole address space" (R237, R262, decision D30). Raised by PUTSP; safe. -/
  | putspNoTerminator
  /-- A TRAP whose vector names no service, under `P_UNKNOWN_TRAP` = refuse only (R240, R262). Raised by TRAP;
  safe. Machine/Params.lean sets the parameter to nop, so the machine as it stands does not raise it. -/
  | unknownTrapVector (v : BitVec 8)
  deriving DecidableEq, Repr

/-- The reset state, which is the state of a newly constructed engine (R46, R290, R293): registers, PC and memory
zero, Z set, ready, output and input empty, no supplier, statistics zero. -/
def State.reset : State :=
  { regs := ⟨0#16, 0#16, 0#16, 0#16, 0#16, 0#16, 0#16, 0#16⟩
    pc := 0#16
    flags := ⟨false, true, false⟩
    runState := .ready
    output := []
    buffer := []
    supplier := none
    supplierCalls := 0
    stats := ⟨0, 0, 0, 0, 0⟩
    mem := [] }

end Sys2Proof.Machine
end

