-- ==== Sys2Proof/Machine/Flags.lean ====
section
/-! DEFINITION. The condition flags: how they are computed and what reads them (spec/10_state.md R36-R38). -/

namespace Sys2Proof.Machine

/-- The flags of a 16-bit value: negative, zero, positive (R36). -/
def flagsOf (v : Word) : Flags :=
  { n := v.msb, z := decide (v = 0#16), p := !v.msb && decide (v ≠ 0#16) }

/-- `setcc(v)`: write all three flags at once (R36). -/
def setcc (s : State) (v : Word) : State := { s with flags := flagsOf v }

/-- BR's condition: some requested flag is set (spec/42_control.md R200). -/
def branchTaken (n z p : Bool) (f : Flags) : Bool := (n && f.n) || (z && f.z) || (p && f.p)

end Sys2Proof.Machine
end

