-- ==== Sys2Proof/Machine/Operands.lean ====
section
/-! DEFINITION. Operand forms: extension of immediates and offsets, and the effective addresses
(spec/00_scope.md R13, spec/30_encoding.md R106, R107, spec/41_data_movement.md R169). -/

namespace Sys2Proof.Machine

/-- `sext_N`: sign extension to 16 bits (R13, R106). -/
def sext {n : Nat} (v : BitVec n) : Word := v.signExtend 16

/-- `zext_8`: zero extension of a character or a trap vector to 16 bits (R13, R106). -/
def zext (c : Byte) : Word := c.setWidth 16

/-- `v[7:0]` (R73, R78). -/
def lowByte (v : Word) : Byte := v.extractLsb' 0 8

/-- `v[15:8]` (R78, R237). -/
def highByte (v : Word) : Byte := v.extractLsb' 8 8

/-- A register of the file (R107). -/
def RegFile.get (f : RegFile) : Reg → Word
  | .r0 => f.r0
  | .r1 => f.r1
  | .r2 => f.r2
  | .r3 => f.r3
  | .r4 => f.r4
  | .r5 => f.r5
  | .r6 => f.r6
  | .r7 => f.r7

/-- The file with one register written (R30). -/
def RegFile.set (f : RegFile) (r : Reg) (v : Word) : RegFile :=
  match r with
  | .r0 => { f with r0 := v }
  | .r1 => { f with r1 := v }
  | .r2 => { f with r2 := v }
  | .r3 => { f with r3 := v }
  | .r4 => { f with r4 := v }
  | .r5 => { f with r5 := v }
  | .r6 => { f with r6 := v }
  | .r7 => { f with r7 := v }

/-- `R[i]` (R14). -/
def readReg (s : State) (r : Reg) : Word := s.regs.get r

/-- The PC-relative address, `pc + sext(offset)` mod 2^16; `pc` is already the incremented one (R107, R169, R322). -/
def pcRelative (s : State) {n : Nat} (off : BitVec n) : Word := s.pc + sext off

/-- The base+offset address, `R[BaseR] + sext_6(offset6)` mod 2^16 (R107, R169). -/
def baseOffset (s : State) (base : Reg) (off6 : BitVec 6) : Word := readReg s base + sext off6

end Sys2Proof.Machine
end

