-- ==== Sys2Proof/Config.lean ====
section
/-! DEFINITION. The named parameters of spec/00_scope.md R11, and the values the spec leaves to the host.
The values at which the machine runs are in Machine/Params.lean. -/

namespace Sys2Proof

/-- `P_UNKNOWN_TRAP`: what a TRAP whose vector names no service does (spec/43_trap.md R240). -/
inductive UnknownTrap where
  | nop
  | halt
  | refuse
  deriving DecidableEq, Repr

/-- `P_PUTSP_ZERO_LOW`: how PUTSP treats a zero low byte under a non-zero high byte (spec/43_trap.md R237). -/
inductive PutspZeroLow where
  | emit
  | skip
  | stop
  deriving DecidableEq, Repr

/-- The engine's parameters (spec/00_scope.md R11; `P_ASM_NUMERAL_OFFSET` belongs to the assembler alone and
is an argument of Machine/Assembler.lean). -/
structure Config where
  /-- `P_TRAP_LINKS_R7` -/
  trapLinksR7 : Bool
  /-- `P_UNKNOWN_TRAP` -/
  unknownTrap : UnknownTrap
  /-- `P_IN_PROMPT` -/
  inPrompt : List Byte
  /-- `P_STAT_COUNT_FETCH` -/
  statCountFetch : Bool
  /-- `P_STAT_COUNT_TRAP_IO` -/
  statCountTrapIo : Bool
  /-- `P_LINK_SETS_CC` -/
  linkSetsCc : Bool
  /-- `P_PUTSP_ZERO_LOW` -/
  putspZeroLow : PutspZeroLow
  deriving DecidableEq, Repr

/-- `P_IN_PROMPT` is OPEN (R11, decision D7): a free value, constrained by nothing (notes/assumptions/1.md). -/
opaque Config.openInPrompt : List Byte

/-- What an installed supplier answers at its `n`-th call, where the state does not list the answer: the
supplier is a host function the spec says nothing of (R41), so the answer is free (notes/assumptions/2.md). -/
opaque Config.supplierAnswer (n : Nat) : Option Byte

end Sys2Proof
end

