-- ==== Sys2Proof/Machine/Params.lean ====
section
/-! DEFINITION. The parameter values at which the machine runs: the spec values of spec/00_scope.md R11, and the
free prompt for the one that is OPEN. The meanings take the parameters as an argument, so other values can be
looked at as well. -/

namespace Sys2Proof.Machine

/-- The spec values of R11 (decisions D3, D5, D21, D25, D31); `P_IN_PROMPT` is OPEN (D7), so it is the free value
of notes/assumptions/1.md. -/
def params : Config :=
  { trapLinksR7 := false
    unknownTrap := .nop
    inPrompt := Config.openInPrompt
    statCountFetch := false
    statCountTrapIo := false
    linkSetsCc := true
    putspZeroLow := .emit }

end Sys2Proof.Machine
end

