-- ==== Sys2Proof/Machine/Ops.lean ====
section
/-! DEFINITION. The named operations over the state: registers, memory and the I/O intercept, the console, input,
the run state, the statistics, and the fetch (spec/00_scope.md R14, spec/10_state.md, spec/20_memory.md,
spec/30_encoding.md R100). This hardware takes no exception and has no return from one (spec/60_exceptions.md R260,
R268, R269): a TRAP is a service inside its own step (Trap.lean), and what stands in an exception's place here is
the two run-time conditions, `halt` and `waitInput` (R261). -/

namespace Sys2Proof.Machine

/-! ### Registers -/

/-- `R[i] <- v` (R14). -/
def writeReg (s : State) (r : Reg) (v : Word) : State := { s with regs := s.regs.set r v }

/-- `pc <- target` (R14). -/
def setPc (s : State) (target : Word) : State := { s with pc := target }

/-- Write a result and recompute the flags from it (R37). -/
def writeResult (s : State) (r : Reg) (v : Word) : State := setcc (writeReg s r v) v

/-! ### The raw memory array -/

/-- The word a memory holds at an address: 0x0000 where none is listed (R46). -/
def Memory.read : Memory → Nat → Word
  | [], _ => 0#16
  | (b, w) :: m, a => if b = a then w else Memory.read m a

/-- The memory with the word at one address set, in canonical form: writing 0x0000 removes the entry. -/
def Memory.write : Memory → Nat → Word → Memory
  | [], a, v => if v = 0#16 then [] else [(a, v)]
  | (b, w) :: m, a, v =>
    if a < b then (if v = 0#16 then (b, w) :: m else (a, v) :: (b, w) :: m)
    else if a = b then (if v = 0#16 then m else (a, v) :: m)
    else (b, w) :: Memory.write m a v

/-- The entries from address `lo` on are in canonical form: addresses strictly rising and inside the 65,536
words (R60), no word 0x0000. -/
def Memory.wfFrom (lo : Nat) : Memory → Bool
  | [] => true
  | (a, v) :: m => decide (lo ≤ a) && decide (a < 65536) && decide (v ≠ 0#16) && Memory.wfFrom (a + 1) m

/-- The canonical form of a memory. -/
def Memory.wf (m : Memory) : Bool := Memory.wfFrom 0 m

/-- `RawRead(a)`: the array word, with no side effect (R63). -/
def rawRead (s : State) (a : Word) : Word := s.mem.read a.toNat

/-- `RawWrite(a, v)` (R63). -/
def rawWrite (s : State) (a v : Word) : State := { s with mem := s.mem.write a.toNat v }

/-! ### Run state, console, input -/

/-- `halt()` (R39). -/
def halt (s : State) : State := { s with runState := .halted }

/-- `emit(c)`: append to the console output (R40). -/
def emit (s : State) (c : Byte) : State := { s with output := s.output ++ [c] }

/-- `emit` of each character in turn (R236). -/
def emitAll (s : State) (cs : List Byte) : State := cs.foldl emit s

/-- `supplier()`: one call of the installed supplier, with its answer (R41, R42). -/
def callSupplier (s : State) (answers : List (Option Byte)) : Option Byte × State :=
  match answers with
  | r :: rest => (r, { s with supplier := some rest, supplierCalls := s.supplierCalls + 1 })
  | [] => (Config.supplierAnswer s.supplierCalls, { s with supplierCalls := s.supplierCalls + 1 })

/-- `take_input()`: the buffer first, then the supplier, called at most once (R42). -/
def takeInput (s : State) : Option Byte × State :=
  match s.buffer, s.supplier with
  | c :: rest, _ => (some c, { s with buffer := rest })
  | [], some answers => callSupplier s answers
  | [], none => (none, s)

/-! ### Statistics -/

/-- `stat.mem_reads += n` (R43). -/
def countReads (s : State) (n : Nat) : State :=
  { s with stats := { s.stats with memReads := s.stats.memReads + n } }

/-- `stat.mem_writes += 1` (R43). -/
def countWrite (s : State) : State :=
  { s with stats := { s.stats with memWrites := s.stats.memWrites + 1 } }

/-- `stat.branches_taken += 1` (R43). -/
def countTaken (s : State) : State :=
  { s with stats := { s.stats with branchesTaken := s.stats.branchesTaken + 1 } }

/-- `stat.branches_not_taken += 1` (R43). -/
def countNotTaken (s : State) : State :=
  { s with stats := { s.stats with branchesNotTaken := s.stats.branchesNotTaken + 1 } }

/-- `stat.instructions += 1` (R43, R100). -/
def countInstruction (s : State) : State :=
  { s with stats := { s.stats with instructions := s.stats.instructions + 1 } }

/-- `stat.instructions -= 1`, the rewind's (R43, R239). -/
def uncountInstruction (s : State) : State :=
  { s with stats := { s.stats with instructions := s.stats.instructions - 1 } }

/-- `wait_input()`: rewind the PC to the TRAP, undo the instruction count, wait for input (spec/43_trap.md R239). -/
def waitInput (s : State) : State :=
  { uncountInstruction (setPc s (s.pc - 1#16)) with runState := .waitingForInput }

/-! ### The device registers and the I/O intercept -/

/-- KBSR, the keyboard status register (R68). -/
def kbsrAddr : Word := 0xFE00#16
/-- KBDR, the keyboard data register (R68). -/
def kbdrAddr : Word := 0xFE02#16
/-- DSR, the display status register (R68). -/
def dsrAddr : Word := 0xFE04#16
/-- DDR, the display data register (R68). -/
def ddrAddr : Word := 0xFE06#16
/-- MCR, the machine-control register (R68). -/
def mcrAddr : Word := 0xFFFE#16

/-- `KBSR_read()`: ready, bit 15, where a character is pending in the buffer (R69); the supplier is not asked (R71). -/
def kbsrRead (s : State) : Word := if s.buffer = [] then 0x0000#16 else 0x8000#16

/-- `KBDR_read()`: consume the next pending character; 0x0000 and nothing consumed where there is none (R70, R71). -/
def kbdrRead (s : State) : Word × State :=
  match s.buffer with
  | [] => (0x0000#16, s)
  | c :: rest => (zext c, { s with buffer := rest })

/-- `DSR_read()`: always ready (R72). -/
def dsrRead : Word := 0x8000#16

/-- `MCR_read()`: the running bit (R74). -/
def mcrRead (s : State) : Word := if s.runState = .halted then 0x0000#16 else 0x8000#16

/-- `DDR_write(v)`: emit the low 8 bits; nothing is stored (R73). -/
def ddrWrite (s : State) (v : Word) : State := emit s (lowByte v)

/-- `MCR_write(v)`: halt where bit 15 is 0; nothing is stored (R75). -/
def mcrWrite (s : State) (v : Word) : State := if v.msb then s else halt s

/-- `MemRead(a)`: every read by the program, the fetch included (R64). -/
def memRead (s : State) (a : Word) : Word × State :=
  if a = kbsrAddr then (kbsrRead s, s)
  else if a = kbdrAddr then kbdrRead s
  else if a = dsrAddr then (dsrRead, s)
  else if a = mcrAddr then (mcrRead s, s)
  else (rawRead s a, s)

/-- `MemWrite(a, v)`: every write by the program (R65). -/
def memWrite (s : State) (a v : Word) : State :=
  if a = ddrAddr then ddrWrite s v
  else if a = mcrAddr then mcrWrite s v
  else rawWrite s a v

/-! ### The fetch -/

/-- The fetch of a step that is not halted: run state ready, read the word at the PC through the intercept, count
it, increment the PC before execution (R100, R101). -/
def fetch (cfg : Config) (s : State) : Word × State :=
  let r := memRead { s with runState := .ready } s.pc
  let s1 := if cfg.statCountFetch then countReads r.2 1 else r.2
  (r.1, countInstruction (setPc s1 (s1.pc + 1#16)))

/-- A fetch at `a` reads a device register, not the array (R64). -/
def fetchIntercepted (a : Word) : Bool := decide (a = kbsrAddr ∨ a = kbdrAddr ∨ a = dsrAddr ∨ a = mcrAddr)

/-- The state with the word `w` placed where the next step fetches, as the host's load would place it (R291): in the
array at the PC, the engine not halted. A PC at a device register, whose fetch cannot read the array, is set to the
reset PC first (notes/assumptions/4.md). -/
def placeInstruction (s : State) (w : Word) : State :=
  let s1 := if fetchIntercepted s.pc then setPc s 0#16 else s
  let s2 := if s1.runState = .halted then { s1 with runState := .ready } else s1
  rawWrite s2 s2.pc w

end Sys2Proof.Machine
end

