-- ==== Sys2Proof/Machine/Operate.lean ====
section
/-! DEFINITION. The operate instructions ADD, AND and NOT (spec/40_operate.md). The state an instruction's meaning
gets is the one after the fetch: its PC is already incremented (R101). -/

namespace Sys2Proof.Machine

/-- The outcome of executing one instruction. -/
abbrev Result := Host.Outcome State Fault Refusal

/-- ADD, register form (R150). -/
def execAddReg (dr sr1 sr2 : Reg) (s : State) : Result :=
  .next (writeResult s dr (readReg s sr1 + readReg s sr2))

/-- ADD, immediate form (R150). -/
def execAddImm (dr sr1 : Reg) (imm5 : BitVec 5) (s : State) : Result :=
  .next (writeResult s dr (readReg s sr1 + sext imm5))

/-- AND, register form (R152). -/
def execAndReg (dr sr1 sr2 : Reg) (s : State) : Result :=
  .next (writeResult s dr (readReg s sr1 &&& readReg s sr2))

/-- AND, immediate form (R152). -/
def execAndImm (dr sr1 : Reg) (imm5 : BitVec 5) (s : State) : Result :=
  .next (writeResult s dr (readReg s sr1 &&& sext imm5))

/-- NOT (R154). -/
def execNotReg (dr sr : Reg) (s : State) : Result :=
  .next (writeResult s dr (~~~ readReg s sr))

end Sys2Proof.Machine
end

