-- ==== Sys2Proof/Machine/DataMovement.lean ====
section
/-! DEFINITION. The data movement instructions LD, LDI, LDR, LEA, ST, STI and STR (spec/41_data_movement.md). Every
access goes through the I/O intercept (R64-R66). -/

namespace Sys2Proof.Machine

/-- Load the word at `ea` into `dr`: flags from it, one memory read counted (R170, R174). -/
def loadFrom (s : State) (dr : Reg) (ea : Word) : State :=
  countReads (writeResult (memRead s ea).2 dr (memRead s ea).1) 1

/-- Store `v` at `ea`: one memory write counted (R178, R182). -/
def storeTo (s : State) (ea v : Word) : State := countWrite (memWrite s ea v)

/-- The pointer of an indirect access: the address it holds, and the state after the counted read (R169). -/
def readPointer (s : State) (off9 : BitVec 9) : Word × State :=
  ((memRead s (pcRelative s off9)).1, countReads (memRead s (pcRelative s off9)).2 1)

/-- LD (R170). -/
def execLd (dr : Reg) (off9 : BitVec 9) (s : State) : Result := .next (loadFrom s dr (pcRelative s off9))

/-- LDI: the pointer is read first, then the data (R172). -/
def execLdi (dr : Reg) (off9 : BitVec 9) (s : State) : Result :=
  .next (loadFrom (readPointer s off9).2 dr (readPointer s off9).1)

/-- LDR (R174). -/
def execLdr (dr base : Reg) (off6 : BitVec 6) (s : State) : Result := .next (loadFrom s dr (baseOffset s base off6))

/-- LEA: the address itself, no memory access (R176). -/
def execLea (dr : Reg) (off9 : BitVec 9) (s : State) : Result := .next (writeResult s dr (pcRelative s off9))

/-- ST (R178). -/
def execSt (sr : Reg) (off9 : BitVec 9) (s : State) : Result :=
  .next (storeTo s (pcRelative s off9) (readReg s sr))

/-- STI: the pointer is read first, then the store (R180). -/
def execSti (sr : Reg) (off9 : BitVec 9) (s : State) : Result :=
  .next (storeTo (readPointer s off9).2 (readPointer s off9).1 (readReg s sr))

/-- STR (R182). -/
def execStr (sr base : Reg) (off6 : BitVec 6) (s : State) : Result :=
  .next (storeTo s (baseOffset s base off6) (readReg s sr))

end Sys2Proof.Machine
end

