-- ==== Sys2Proof/Machine/Control.lean ====
section
/-! DEFINITION. The control transfers BR, JMP, RET, JSR and JSRR, and the inert opcodes RTI and 0xD
(spec/42_control.md). -/

namespace Sys2Proof.Machine

/-- BR (R200). -/
def execBr (n z p : Bool) (off9 : BitVec 9) (s : State) : Result :=
  if branchTaken n z p s.flags then .next (countTaken (setPc s (pcRelative s off9)))
  else .next (countNotTaken s)

/-- JMP (R204). -/
def execJmp (base : Reg) (s : State) : Result := .next (setPc s (readReg s base))

/-- RET: a jump through R7 (R204). -/
def execRet (s : State) : Result := .next (setPc s (readReg s .r7))

/-- Write the link, the address after the instruction, into R7; the flags follow where `setsCc` is true (R206, R208,
R230). -/
def writeLink (s : State) (setsCc : Bool) : State :=
  if setsCc then writeResult s .r7 s.pc else writeReg s .r7 s.pc

/-- A subroutine call at the parameters `cfg`: link, then jump to a target computed before (R206, R208). -/
def callTo (cfg : Config) (s : State) (target : Word) : State := setPc (writeLink s cfg.linkSetsCc) target

/-- JSR at the parameters `cfg` (R206). -/
def callRelative (cfg : Config) (off11 : BitVec 11) (s : State) : Result := .next (callTo cfg s (pcRelative s off11))

/-- JSRR at the parameters `cfg`: the target is read before R7 is written (R208, decision D24). -/
def callRegister (cfg : Config) (base : Reg) (s : State) : Result := .next (callTo cfg s (readReg s base))

/-- JSR (R206). -/
def execJsr (off11 : BitVec 11) (s : State) : Result := callRelative params off11 s

/-- JSRR (R208). -/
def execJsrr (base : Reg) (s : State) : Result := callRegister params base s

/-- RTI: inert, the fetch has already advanced the PC (R210). -/
def execRti (s : State) : Result := .next s

/-- The reserved opcode 0xD: inert (R212). -/
def execReserved (s : State) : Result := .next s

end Sys2Proof.Machine
end

