-- ==== Sys2Proof/Machine/Trap.lean ====
section
/-! DEFINITION. TRAP and its six services (spec/43_trap.md). The routines are services of the engine, performed
within the TRAP's step; no vector table is read and the PC is not redirected (R230, R231). -/

namespace Sys2Proof.Machine

/-- The link of a TRAP, where `P_TRAP_LINKS_R7` is true (R230). -/
def trapLink (cfg : Config) (s : State) : State := if cfg.trapLinksR7 then writeLink s true else s

/-- A string read of PUTS or PUTSP counts only where `P_STAT_COUNT_TRAP_IO` is true (R241). -/
def countStringRead (cfg : Config) (s : State) : State := if cfg.statCountTrapIo then countReads s 1 else s

/-- Take the character into R0, zero-extended, flags from it (R233, R236). -/
def receiveChar (s : State) (c : Byte) : State := writeResult s .r0 (zext c)

/-- GETC (R233); with no input it rewinds and waits (R232, R239). -/
def serviceGetc (cfg : Config) (s : State) : Result :=
  match takeInput s with
  | (none, s1) => .next (waitInput s1)
  | (some c, s1) => .next (receiveChar (trapLink cfg s1) c)

/-- OUT (R234). -/
def serviceOut (cfg : Config) (s : State) : Result :=
  .next (emit (trapLink cfg s) (lowByte (readReg s .r0)))

/-- PUTS's loop from address `a`, over at most `n` more words: `none` where none of them is the terminator (R235). -/
def putsLoop (cfg : Config) : Nat → Word → State → Option State
  | 0, _, _ => none
  | n + 1, a, s =>
    let w := (memRead s a).1
    let s1 := countStringRead cfg (memRead s a).2
    if w = 0#16 then some s1 else putsLoop cfg n (a + 1#16) (emit s1 (lowByte w))

/-- PUTS: the string of one character per word at R0, refused where all 65,536 words are read without a terminator
(R235, decision D30). -/
def servicePuts (cfg : Config) (s : State) : Result :=
  match putsLoop cfg 65536 (readReg s .r0) (trapLink cfg s) with
  | some t => .next t
  | none => .refused .putsNoTerminator

/-- IN: prompt, character into R0, echo; with no input nothing is written and it waits (R236, R239). -/
def serviceIn (cfg : Config) (s : State) : Result :=
  match takeInput s with
  | (none, s1) => .next (waitInput s1)
  | (some c, s1) => .next (receiveChar (emit (emitAll (trapLink cfg s1) cfg.inPrompt) c) c)

/-- What PUTSP writes of one word that is no terminator: low byte, then high byte; `none` where a zero low byte ends
the string (`P_PUTSP_ZERO_LOW` = stop) (R237). -/
def packedChars (mode : PutspZeroLow) (w : Word) : Option (List Byte) :=
  let hi := if highByte w = 0#8 then [] else [highByte w]
  if lowByte w ≠ 0#8 then some (lowByte w :: hi)
  else match mode with
    | .emit => some (0#8 :: hi)
    | .skip => some hi
    | .stop => none

/-- PUTSP's loop from address `a`, over at most `n` more words: `none` where none of them ends the string (R237). -/
def putspLoop (cfg : Config) : Nat → Word → State → Option State
  | 0, _, _ => none
  | n + 1, a, s =>
    let w := (memRead s a).1
    let s1 := countStringRead cfg (memRead s a).2
    if w = 0#16 then some s1
    else match packedChars cfg.putspZeroLow w with
      | none => some s1
      | some cs => putspLoop cfg n (a + 1#16) (emitAll s1 cs)

/-- PUTSP: the packed string of two characters per word at R0, refused where all 65,536 words are read and none ends
it (R237, decision D30). -/
def servicePutsp (cfg : Config) (s : State) : Result :=
  match putspLoop cfg 65536 (readReg s .r0) (trapLink cfg s) with
  | some t => .next t
  | none => .refused .putspNoTerminator

/-- HALT (R238). -/
def serviceHalt (cfg : Config) (s : State) : Result := .next (halt (trapLink cfg s))

/-- A TRAP whose vector names no service, according to `P_UNKNOWN_TRAP` (R240). -/
def unknownTrap (cfg : Config) (v : BitVec 8) (s : State) : Result :=
  match cfg.unknownTrap with
  | .nop => .next (trapLink cfg s)
  | .halt => serviceHalt cfg s
  | .refuse => .refused (.unknownTrapVector v)

/-- TRAP: the vector selects the service (R230, R231, R240). -/
def performTrap (cfg : Config) (v : BitVec 8) (s : State) : Result :=
  if v = 0x20#8 then serviceGetc cfg s
  else if v = 0x21#8 then serviceOut cfg s
  else if v = 0x22#8 then servicePuts cfg s
  else if v = 0x23#8 then serviceIn cfg s
  else if v = 0x24#8 then servicePutsp cfg s
  else if v = 0x25#8 then serviceHalt cfg s
  else unknownTrap cfg v s

/-- TRAP (R230). A well-formed one has a vector that names no service (R240). -/
def execTrap (v : BitVec 8) (s : State) : Result := performTrap params v s

/-- TRAP 0x20 (R233). -/
def execGetc (s : State) : Result := serviceGetc params s

/-- TRAP 0x21 (R234). -/
def execOut (s : State) : Result := serviceOut params s

/-- TRAP 0x22 (R235). -/
def execPuts (s : State) : Result := servicePuts params s

/-- TRAP 0x23 (R236). -/
def execIn (s : State) : Result := serviceIn params s

/-- TRAP 0x24 (R237). -/
def execPutsp (s : State) : Result := servicePutsp params s

/-- TRAP 0x25 (R238). -/
def execHalt (s : State) : Result := serviceHalt params s

end Sys2Proof.Machine
end

