-- ==== Sys2Proof/Machine/Step.lean ====
section
/-! DEFINITION. One step of the engine: fetch, decode, execute (spec/30_encoding.md R100, spec/70_reset_and_hazards.md
R301), and the placing of an instruction where the next step fetches it. -/

namespace Sys2Proof.Machine

/-- One step (R100). A halted engine's step changes nothing; a waiting engine's retries the trap (R301). -/
def step (s : State) : Host.Outcome State Fault Refusal :=
  if s.runState = .halted then .next s
  else exec (decode (fetch params s).1) (fetch params s).2

/-- `s` with an instruction's word placed where the next step fetches (notes/assumptions/4.md). -/
def State.withFetchWord (s : State) (nbits w : Nat) : State := placeInstruction s ((tableWord nbits w).getD 0#16)

end Sys2Proof.Machine
end

