-- ==== Sys2Proof/Machine/Assembler.lean ====
section
/-! DEFINITION. The reference assembler and the disassembler (spec/30_encoding.md R120-R134): toolchain, not the engine
(spec/00_scope.md R6). No step of the machine depends on this file. What the rules leave open is in
notes/assumptions/5.md. -/

namespace Sys2Proof.Asm

/-- A name or a piece of source text. -/
abbrev Text := List Char

/-- `P_ASM_NUMERAL_OFFSET` (R11, R125, decision D35; OPEN): what a numeral in a label position is. -/
inductive NumeralOffset where
  | offset
  | address
  deriving DecidableEq, Repr

/-- An operand in a label position: a numeral or a label (R125). -/
inductive Target where
  | num (v : Int)
  | label (name : Text)
  deriving DecidableEq, Repr

/-- What a line asks for, its operands read (R122, R124, R127). -/
inductive Stmt where
  | addReg (dr sr1 sr2 : Reg)
  | addImm (dr sr1 : Reg) (v : Int)
  | andReg (dr sr1 sr2 : Reg)
  | andImm (dr sr1 : Reg) (v : Int)
  | notReg (dr sr : Reg)
  | br (n z p : Bool) (t : Target)
  | jmp (base : Reg)
  | jsr (t : Target)
  | jsrr (base : Reg)
  | ld (dr : Reg) (t : Target)
  | ldi (dr : Reg) (t : Target)
  | lea (dr : Reg) (t : Target)
  | st (sr : Reg) (t : Target)
  | sti (sr : Reg) (t : Target)
  | ldr (dr base : Reg) (v : Int)
  | str (sr base : Reg) (v : Int)
  | rti
  | trap (v : Int)
  | orig (v : Int)
  | fin
  | fill (t : Target)
  | blkw (n : Int)
  | stringz (s : Text)
  deriving DecidableEq, Repr

/-- The kinds of assembly-time error (R132). -/
inductive ErrorKind where
  | unknownMnemonic
  | badRegister
  | badOperands
  | outOfRange (bits : Nat)
  | unknownLabel
  | duplicateLabel
  | reservedLabel
  | beforeOrigin
  | badNumeral
  deriving DecidableEq, Repr

/-- An error with its line number, from 1 (R132). -/
structure Error where
  line : Nat
  kind : ErrorKind
  deriving DecidableEq, Repr

/-- A parsed line: its number, its label, its statement. -/
structure Line where
  number : Nat
  label : Option Text
  stmt : Option Stmt
  deriving DecidableEq, Repr

/-- The assembler's output (R130). -/
structure Output where
  origin : Word
  words : List Word
  symbols : List (Text × Word)
  errors : List Error
  sourceMap : List (Word × Nat)
  deriving DecidableEq, Repr

/-! ### Reading a line (R120, R121) -/

/-- The text before the first unquoted `;` (R120); inside quotes a backslash keeps the next character. -/
def stripComment : Bool → Text → Text
  | _, [] => []
  | true, '\\' :: c :: cs => '\\' :: c :: stripComment true cs
  | true, '"' :: cs => '"' :: stripComment false cs
  | true, c :: cs => c :: stripComment true cs
  | false, ';' :: _ => []
  | false, '"' :: cs => '"' :: stripComment true cs
  | false, c :: cs => c :: stripComment false cs

/-- White space or a comma (R120). -/
def isSeparator (c : Char) : Bool := c == ' ' || c == '\t' || c == '\r' || c == ','

/-- The tokens of a line, split on white space and commas, a quoted string whole with its quotes (R120). `acc` is the
token being read, backwards. -/
def tokens : Bool → Text → Text → List Text
  | _, acc, [] => if acc = [] then [] else [acc.reverse]
  | true, acc, '\\' :: c :: cs => tokens true (c :: '\\' :: acc) cs
  | true, acc, '"' :: cs => ('"' :: acc).reverse :: tokens false [] cs
  | true, acc, c :: cs => tokens true (c :: acc) cs
  | false, acc, '"' :: cs => (if acc = [] then [] else [acc.reverse]) ++ tokens true ['"'] cs
  | false, acc, c :: cs =>
    if isSeparator c then (if acc = [] then [] else [acc.reverse]) ++ tokens false [] cs
    else tokens false (c :: acc) cs

/-- Names are compared without regard to case (R121). -/
def upper (t : Text) : Text := t.map Char.toUpper

/-- The value of a digit in a base of at most 16. -/
def digit (base : Nat) (c : Char) : Option Nat :=
  let v := if c.isDigit then c.toNat - 48 else if 97 ≤ c.toNat ∧ c.toNat ≤ 102 then c.toNat - 87
    else if 65 ≤ c.toNat ∧ c.toNat ≤ 70 then c.toNat - 55 else base
  if v < base then some v else none

/-- The number that a non-empty string of digits writes. -/
def digits (base : Nat) : Nat → Text → Option Nat
  | acc, [] => some acc
  | acc, c :: cs =>
    match digit base c with
    | some d => digits base (acc * base + d) cs
    | none => none

/-- As `digits`, refusing the empty string. -/
def number (base : Nat) (t : Text) : Option Nat := if t = [] then none else digits base 0 t

/-- A numeral: `#N` with an optional minus sign, `xHEX`, `0xHEX`, `bBINARY` (R121). -/
def parseNumeral : Text → Option Int
  | '#' :: '-' :: cs => (number 10 cs).map fun n => -(n : Int)
  | '#' :: cs => (number 10 cs).map Int.ofNat
  | 'x' :: cs => (number 16 cs).map Int.ofNat
  | '0' :: 'x' :: cs => (number 16 cs).map Int.ofNat
  | 'b' :: cs => (number 2 cs).map Int.ofNat
  | _ => none

/-- A register name, `R0` to `R7` in either case (R121). -/
def parseReg (t : Text) : Option Reg :=
  match upper t with
  | ['R', c] =>
    if c = '0' then some .r0 else if c = '1' then some .r1 else if c = '2' then some .r2
    else if c = '3' then some .r3 else if c = '4' then some .r4 else if c = '5' then some .r5
    else if c = '6' then some .r6 else if c = '7' then some .r7 else none
  | _ => none

/-- An operand in a label position. A token that begins as a decimal numeral and is none is an error (R132); any other
token that is no numeral is a label (DESIGN CHOICE, notes/assumptions/5.md). -/
def parseTarget (t : Text) : Except ErrorKind Target :=
  match parseNumeral t with
  | some v => .ok (.num v)
  | none => if t.head? = some '#' then .error .badNumeral else .ok (.label (upper t))

/-- The characters of a quoted string, its escapes read (R131); `none` where it is not one. A backslash before a
character that is none of the five escapes makes the operand an error (DESIGN CHOICE, notes/assumptions/5.md). -/
def unquote : Text → Option Text
  | ['"'] => some []
  | '\\' :: 'n' :: cs => (unquote cs).map ('\n' :: ·)
  | '\\' :: 't' :: cs => (unquote cs).map ('\t' :: ·)
  | '\\' :: '\\' :: cs => (unquote cs).map ('\\' :: ·)
  | '\\' :: '"' :: cs => (unquote cs).map ('"' :: ·)
  | '\\' :: '0' :: cs => (unquote cs).map (Char.ofNat 0 :: ·)
  | '\\' :: _ => none
  | '"' :: _ => none
  | [] => none
  | c :: cs => (unquote cs).map (c :: ·)

/-- BR's condition letters, in the order n, z, p; none of them stands for all (R123). -/
def branchLetters (t : Text) : Option (Bool × Bool × Bool) :=
  let n := t.head? == some 'N'
  let t1 := if n then t.tail else t
  let z := t1.head? == some 'Z'
  let t2 := if z then t1.tail else t1
  let p := t2.head? == some 'P'
  let t3 := if p then t2.tail else t2
  if t3 ≠ [] then none else if t = [] then some (true, true, true) else some (n, z, p)

/-- What a mnemonic or directive makes of its operands. -/
abbrev Reader := List Text → Except ErrorKind Stmt

/-- No operands. -/
def none0 (s : Stmt) : Reader
  | [] => .ok s
  | _ => .error .badOperands

/-- A register, then what the rest makes of it. -/
def withReg (k : Reg → Reader) : Reader
  | t :: ts =>
    match parseReg t with
    | some r => k r ts
    | none => .error .badRegister
  | [] => .error .badOperands

/-- One numeral. -/
def withNum (k : Int → Stmt) : Reader
  | [t] =>
    match parseNumeral t with
    | some v => .ok (k v)
    | none => .error .badNumeral
  | _ => .error .badOperands

/-- One target. -/
def withTarget (k : Target → Stmt) : Reader
  | [t] => (parseTarget t).map k
  | _ => .error .badOperands

/-- A register or else a numeral: the second operand of ADD and AND (R122). -/
def withOperand (reg : Reg → Stmt) (imm : Int → Stmt) : Reader
  | [t] =>
    match parseReg t with
    | some r => .ok (reg r)
    | none => withNum imm [t]
  | _ => .error .badOperands

/-- One quoted string. -/
def withString : Reader
  | [t] =>
    match t with
    | '"' :: cs =>
      match unquote cs with
      | some s => .ok (.stringz s)
      | none => .error .badOperands
    | _ => .error .badOperands
  | _ => .error .badOperands

/-- The mnemonics and directives (R122, R124, R127). -/
def readers : List (Text × Reader) :=
  [ ("ADD".toList, withReg fun d => withReg fun a => withOperand (.addReg d a) (.addImm d a)),
    ("AND".toList, withReg fun d => withReg fun a => withOperand (.andReg d a) (.andImm d a)),
    ("NOT".toList, withReg fun d => withReg fun a => none0 (.notReg d a)),
    ("JMP".toList, withReg fun b => none0 (.jmp b)),
    ("RET".toList, none0 (.jmp .r7)),
    ("JSR".toList, withTarget .jsr),
    ("JSRR".toList, withReg fun b => none0 (.jsrr b)),
    ("LD".toList, withReg fun d => withTarget (.ld d)),
    ("LDI".toList, withReg fun d => withTarget (.ldi d)),
    ("LEA".toList, withReg fun d => withTarget (.lea d)),
    ("ST".toList, withReg fun d => withTarget (.st d)),
    ("STI".toList, withReg fun d => withTarget (.sti d)) ] ++
  [ ("LDR".toList, withReg fun d => withReg fun b => withNum (.ldr d b)),
    ("STR".toList, withReg fun d => withReg fun b => withNum (.str d b)),
    ("RTI".toList, none0 .rti),
    ("TRAP".toList, withNum .trap),
    ("GETC".toList, none0 (.trap 0x20)),
    ("OUT".toList, none0 (.trap 0x21)),
    ("PUTS".toList, none0 (.trap 0x22)),
    ("IN".toList, none0 (.trap 0x23)),
    ("PUTSP".toList, none0 (.trap 0x24)),
    ("HALT".toList, none0 (.trap 0x25)),
    (".ORIG".toList, withNum .orig),
    (".END".toList, none0 .fin),
    (".FILL".toList, withTarget .fill),
    (".BLKW".toList, withNum .blkw),
    (".STRINGZ".toList, withString) ]

/-- The reader of a recognized mnemonic or directive, BR's spellings included (R122, R123). -/
def readerOf (t : Text) : Option Reader :=
  match upper t with
  | 'B' :: 'R' :: cs =>
    match branchLetters cs with
    | some (n, z, p) => some (withTarget (.br n z p))
    | none => none
  | name => (readers.find? fun e => e.1 == name).map Prod.snd

/-- A statement from its tokens. -/
def parseStmt : List Text → Except ErrorKind (Option Stmt)
  | [] => .ok none
  | t :: ts =>
    match readerOf t with
    | some r => (r ts).map some
    | none => .error .unknownMnemonic

/-- One line: the first token is a label where it is no recognized mnemonic or directive (R120). -/
def parseLine (number : Nat) (text : Text) : Line × List Error :=
  let ts := tokens false [] (stripComment false text)
  let label := ts.head?.bind fun t => if (readerOf t).isSome then none else some (upper t)
  match parseStmt (if label.isSome then ts.tail else ts) with
  | .ok s => (⟨number, label, s⟩, [])
  | .error k => (⟨number, label, none⟩, [⟨number, k⟩])

/-- The lines of a text. -/
def splitLines : Text → Text → List Text
  | acc, [] => [acc.reverse]
  | acc, '\n' :: cs => acc.reverse :: splitLines [] cs
  | acc, c :: cs => splitLines (c :: acc) cs

/-! ### Pass 1: addresses and labels (R128) -/

/-- How many words a statement emits (R127). -/
def size : Stmt → Nat
  | .orig _ | .fin => 0
  | .blkw n => n.toNat
  | .stringz s => s.length + 1
  | .addReg _ _ _ | .addImm _ _ _ | .andReg _ _ _ | .andImm _ _ _ | .notReg _ _ | .br _ _ _ _ | .jmp _ | .jsr _
  | .jsrr _ | .ld _ _ | .ldi _ _ | .lea _ _ | .st _ _ | .sti _ _ | .ldr _ _ _ | .str _ _ _ | .rti | .trap _
  | .fill _ => 1

/-- The address counter's and the symbol table's state in pass 1. -/
structure Pass1 where
  counter : Option Word
  origin : Word
  symbols : List (Text × Word)
  /-- every line with the address it stands at -/
  placed : List (Word × Line)
  errors : List Error
  ended : Bool
  deriving DecidableEq, Repr

/-- A label's address (R121). -/
def find (symbols : List (Text × Word)) (name : Text) : Option Word :=
  (symbols.find? fun e => e.1 == name).map Prod.snd

/-- The label of a line bound to the current address, or the error it makes (R121, R128). -/
def bindLabel (p : Pass1) (l : Line) : Pass1 :=
  match l.label with
  | none => p
  | some name =>
    if (parseReg name).isSome then { p with errors := p.errors ++ [⟨l.number, .reservedLabel⟩] }
    else if (find p.symbols name).isSome then { p with errors := p.errors ++ [⟨l.number, .duplicateLabel⟩] }
    else match p.counter with
      | some a => { p with symbols := p.symbols ++ [(name, a)] }
      | none => { p with errors := p.errors ++ [⟨l.number, .beforeOrigin⟩] }

/-- One line of pass 1 with its reading errors; after `.END` nothing more is processed (R127). Of what the rules leave
open (DESIGN CHOICE, notes/assumptions/5.md):
- the address of `.ORIG` is taken modulo 2^16, without an error where it is negative or does not fit 16 bits;
- a label on the line of `.ORIG` binds before the directive sets the counter, so it is an error at the first one and
  has the old counter's address at a later one;
- an unknown mnemonic and a bad register, operand or numeral are errors of pass 1, so one of them keeps pass 2, with its
  words and its range and unknown-label errors, from running (R129). -/
def pass1Line (p : Pass1) (e : Line × List Error) : Pass1 :=
  if p.ended then p
  else
    let p := bindLabel { p with errors := p.errors ++ e.2 } e.1
    match e.1.stmt with
    | none => p
    | some (.orig v) => { p with counter := some (BitVec.ofInt 16 v), origin := BitVec.ofInt 16 v }
    | some .fin => { p with ended := true }
    | some s =>
      match p.counter with
      | some a => { p with counter := some (a + BitVec.ofNat 16 (size s)), placed := p.placed ++ [(a, e.1)] }
      | none => { p with errors := p.errors ++ [⟨e.1.number, .beforeOrigin⟩] }

/-- Pass 1 over all lines. -/
def pass1 (ls : List (Line × List Error)) : Pass1 := ls.foldl pass1Line ⟨none, 0#16, [], [], [], false⟩

/-! ### Pass 2: words (R122-R127, R129) -/

/-- The value fits a signed field of `w` bits (R126). -/
def fitsSigned (w : Nat) (v : Int) : Bool := decide (-(2 ^ (w - 1) : Int) ≤ v ∧ v < (2 ^ (w - 1) : Int))

/-- The value fits an unsigned field of `w` bits (R126). -/
def fitsUnsigned (w : Nat) (v : Int) : Bool := decide (0 ≤ v ∧ v < (2 ^ w : Int))

/-- A signed field: the value masked to its width, and a range violation if it does not fit (R126). -/
def signedField (w : Nat) (v : Int) : BitVec w × List ErrorKind :=
  (BitVec.ofInt w v, if fitsSigned w v then [] else [.outOfRange w])

/-- `target_address - pc_after_fetch` for an instruction at address `a` (R125). -/
def labelOffset (a target : Word) : Int := (target - (a + 1#16)).toInt

/-- The offset field of a target (R125, R126). A numeral that is an address is taken modulo 2^16, without an error of its
own where it is no 16-bit address (DESIGN CHOICE, notes/assumptions/5.md). -/
def offsetField (mode : NumeralOffset) (symbols : List (Text × Word)) (a : Word) (w : Nat) :
    Target → BitVec w × List ErrorKind
  | .num v =>
    match mode with
    | .offset => signedField w v
    | .address => signedField w (labelOffset a (BitVec.ofInt 16 v))
  | .label name =>
    match find symbols name with
    | some t => signedField w (labelOffset a t)
    | none => (0, [.unknownLabel])

/-- `.FILL`'s word: the value masked to 16 bits, or the label's address (R127). -/
def fillWord (symbols : List (Text × Word)) : Target → Word × List ErrorKind
  | .num v => (BitVec.ofInt 16 v, [])
  | .label name =>
    match find symbols name with
    | some t => (t, [])
    | none => (0#16, [.unknownLabel])

/-- The words of a statement at address `a`, and its errors; an error never keeps a word back (R126). -/
def emitWords (mode : NumeralOffset) (symbols : List (Text × Word)) (a : Word) : Stmt → List Word × List ErrorKind
  | .addReg d x y => ([encode (.addReg d x y)], [])
  | .addImm d x v => ([encode (.addImm d x (signedField 5 v).1)], (signedField 5 v).2)
  | .andReg d x y => ([encode (.andReg d x y)], [])
  | .andImm d x v => ([encode (.andImm d x (signedField 5 v).1)], (signedField 5 v).2)
  | .notReg d x => ([encode (.notReg d x)], [])
  | .br n z p t => ([encode (.br n z p (offsetField mode symbols a 9 t).1)], (offsetField mode symbols a 9 t).2)
  | .jmp b => ([encode (.jmp b)], [])
  | .jsr t => ([encode (.jsr (offsetField mode symbols a 11 t).1)], (offsetField mode symbols a 11 t).2)
  | .jsrr b => ([encode (.jsrr b)], [])
  | .ld d t => ([encode (.ld d (offsetField mode symbols a 9 t).1)], (offsetField mode symbols a 9 t).2)
  | .ldi d t => ([encode (.ldi d (offsetField mode symbols a 9 t).1)], (offsetField mode symbols a 9 t).2)
  | .lea d t => ([encode (.lea d (offsetField mode symbols a 9 t).1)], (offsetField mode symbols a 9 t).2)
  | .st x t => ([encode (.st x (offsetField mode symbols a 9 t).1)], (offsetField mode symbols a 9 t).2)
  | .sti x t => ([encode (.sti x (offsetField mode symbols a 9 t).1)], (offsetField mode symbols a 9 t).2)
  | .ldr d b v => ([encode (.ldr d b (signedField 6 v).1)], (signedField 6 v).2)
  | .str x b v => ([encode (.str x b (signedField 6 v).1)], (signedField 6 v).2)
  | .rti => ([encode .rti], [])
  | .trap v => ([encode (.trap (BitVec.ofInt 8 v))], if fitsUnsigned 8 v then [] else [.outOfRange 8])
  | .orig _ | .fin => ([], [])
  | .fill t => ([(fillWord symbols t).1], (fillWord symbols t).2)
  | .blkw n => (List.replicate n.toNat 0#16, [])
  | .stringz s => (s.map (fun c => BitVec.ofNat 16 (c.toNat % 256)) ++ [0#16], [])

/-- Pass 2's output so far. -/
structure Pass2 where
  words : List Word
  sourceMap : List (Word × Nat)
  errors : List Error
  deriving DecidableEq, Repr

/-- One placed line of pass 2, with the source line of every address it fills (R129). -/
def pass2Line (mode : NumeralOffset) (symbols : List (Text × Word)) (p : Pass2) (e : Word × Line) : Pass2 :=
  match e.2.stmt with
  | none => p
  | some s =>
    let r := emitWords mode symbols e.1 s
    { words := p.words ++ r.1
      sourceMap := p.sourceMap ++ (List.range r.1.length).map fun k => (e.1 + BitVec.ofNat 16 k, e.2.number)
      errors := p.errors ++ r.2.map fun k => ⟨e.2.number, k⟩ }

/-- `assemble(source_text)` (R130): pass 2 runs only where pass 1 found no errors (R129). -/
def assemble (mode : NumeralOffset) (source : Text) : Output :=
  let texts := splitLines [] source
  let p1 := pass1 ((List.range texts.length).zip texts |>.map fun e => parseLine (e.1 + 1) e.2)
  if p1.errors ≠ [] then ⟨p1.origin, [], p1.symbols, p1.errors, []⟩
  else
    let p2 := p1.placed.foldl (pass2Line mode p1.symbols) ⟨[], [], []⟩
    ⟨p1.origin, p2.words, p1.symbols, p2.errors, p2.sourceMap⟩

/-- The image a host may load: an output with an error is not run at all (R134). -/
def Output.image (o : Output) : Option (Word × List Word) := if o.errors = [] then some (o.origin, o.words) else none

/-! ### The disassembler (R133) -/

/-- A target written as a numeral that means the offset `off` at address `a`. -/
def targetOf (mode : NumeralOffset) (a : Word) {w : Nat} (off : BitVec w) : Target :=
  match mode with
  | .offset => .num off.toInt
  | .address => .num (a + 1#16 + off.signExtend 16).toNat

/-- The statement that assembles to a word at an address (R133). R133 speaks of the words the code generator produces;
of the others (DESIGN CHOICE, notes/assumptions/5.md), the reserved opcode and a branch with no condition are written
with `.FILL`, which gives the same word back, and a word with other than the assembler's values in the bits of R109 is
written with its mnemonic, which gives its canonical word. -/
def disassemble (mode : NumeralOffset) (w a : Word) : Stmt :=
  match decode w with
  | .addReg d x y => .addReg d x y
  | .addImm d x v => .addImm d x v.toInt
  | .andReg d x y => .andReg d x y
  | .andImm d x v => .andImm d x v.toInt
  | .notReg d x => .notReg d x
  | .br n z p o => if n || z || p then .br n z p (targetOf mode a o) else .fill (.num w.toNat)
  | .jmp b => .jmp b
  | .ret => .jmp .r7
  | .jsr o => .jsr (targetOf mode a o)
  | .jsrr b => .jsrr b
  | .ld d o => .ld d (targetOf mode a o)
  | .ldi d o => .ldi d (targetOf mode a o)
  | .lea d o => .lea d (targetOf mode a o)
  | .st x o => .st x (targetOf mode a o)
  | .sti x o => .sti x (targetOf mode a o)
  | .ldr d b v => .ldr d b v.toInt
  | .str x b v => .str x b v.toInt
  | .rti => .rti
  | .reserved => .fill (.num w.toNat)
  | .trap v => .trap v.toNat
  | .getc => .trap 0x20
  | .out => .trap 0x21
  | .puts => .trap 0x22
  | .inChar => .trap 0x23
  | .putsp => .trap 0x24
  | .halt => .trap 0x25

/-- A number in the decimal form of R121. -/
def decimal (v : Int) : Text := '#' :: ((if v < 0 then ['-'] else []) ++ Nat.toDigits 10 v.natAbs)

/-- A number in the hexadecimal form of R121; a negative one has the decimal form alone. -/
def hexadecimal (v : Int) : Text := if v < 0 then decimal v else 'x' :: Nat.toDigits 16 v.toNat

/-- A register's name (R121). -/
def regText (r : Reg) : Text := ['R', Nat.digitChar r.toBits.toNat]

/-- An operand in a label position. -/
def targetText : Target → Text
  | .num v => decimal v
  | .label name => name

/-- A character inside a quoted string (R131). -/
def quotedChar (c : Char) : Text :=
  if c = '\n' then ['\\', 'n'] else if c = '\t' then ['\\', 't'] else if c = '\\' then ['\\', '\\']
  else if c = '"' then ['\\', '"'] else if c = Char.ofNat 0 then ['\\', '0'] else [c]

/-- A mnemonic and its operands as one line of source (R120). -/
def lineText (mnemonic : String) (operands : List Text) : Text :=
  mnemonic.toList ++ (if operands = [] then [] else ' ' :: [',', ' '].intercalate operands)

/-- A statement as source text (R120-R124, R127). -/
def render : Stmt → Text
  | .addReg d x y => lineText "ADD" [regText d, regText x, regText y]
  | .addImm d x v => lineText "ADD" [regText d, regText x, decimal v]
  | .andReg d x y => lineText "AND" [regText d, regText x, regText y]
  | .andImm d x v => lineText "AND" [regText d, regText x, decimal v]
  | .notReg d x => lineText "NOT" [regText d, regText x]
  | .br n z p t => "BR".toList ++ (if n then ['n'] else []) ++ (if z then ['z'] else []) ++ (if p then ['p'] else [])
      ++ lineText "" [targetText t]
  | .jmp b => if b = .r7 then lineText "RET" [] else lineText "JMP" [regText b]
  | .jsr t => lineText "JSR" [targetText t]
  | .jsrr b => lineText "JSRR" [regText b]
  | .ld d t => lineText "LD" [regText d, targetText t]
  | .ldi d t => lineText "LDI" [regText d, targetText t]
  | .lea d t => lineText "LEA" [regText d, targetText t]
  | .st x t => lineText "ST" [regText x, targetText t]
  | .sti x t => lineText "STI" [regText x, targetText t]
  | .ldr d b v => lineText "LDR" [regText d, regText b, decimal v]
  | .str x b v => lineText "STR" [regText x, regText b, decimal v]
  | .rti => lineText "RTI" []
  | .trap v =>
    if v = 0x20 then lineText "GETC" [] else if v = 0x21 then lineText "OUT" []
    else if v = 0x22 then lineText "PUTS" [] else if v = 0x23 then lineText "IN" []
    else if v = 0x24 then lineText "PUTSP" [] else if v = 0x25 then lineText "HALT" []
    else lineText "TRAP" [hexadecimal v]
  | .orig v => lineText ".ORIG" [hexadecimal v]
  | .fin => lineText ".END" []
  | .fill t =>
    match t with
    | .num v => lineText ".FILL" [hexadecimal v]
    | .label name => lineText ".FILL" [name]
  | .blkw n => lineText ".BLKW" [decimal n]
  | .stringz s => lineText ".STRINGZ" ['"' :: (s.flatMap quotedChar ++ ['"'])]

/-- `disassemble(word, address) -> mnemonic_text` (R133). -/
def disassembleText (mode : NumeralOffset) (w a : Word) : Text := render (disassemble mode w a)

end Sys2Proof.Asm
end

