-- ==== Sys2Proof/Machine/AtParameters.lean ====
section
/-! DEFINITION. The machine at any values of the parameters of spec/00_scope.md R11, which "the model takes ... as
arguments". `exec` and `step` are this machine at the spec values (Laws/AtParameters.lean). -/

namespace Sys2Proof.Machine

/-- One instruction at the parameters `cfg`. Only the calls (`P_LINK_SETS_CC`) and the traps (the others) depend on
them. -/
def execAt (cfg : Config) (i : Instr) (s : State) : Result :=
  match i with
  | .jsr off11 => callRelative cfg off11 s
  | .jsrr base => callRegister cfg base s
  | .trap v => performTrap cfg v s
  | .getc => serviceGetc cfg s
  | .out => serviceOut cfg s
  | .puts => servicePuts cfg s
  | .inChar => serviceIn cfg s
  | .putsp => servicePutsp cfg s
  | .halt => serviceHalt cfg s
  | .addReg _ _ _ | .addImm _ _ _ | .andReg _ _ _ | .andImm _ _ _ | .notReg _ _ | .br _ _ _ _ | .jmp _ | .ret
  | .ld _ _ | .ldi _ _ | .ldr _ _ _ | .lea _ _ | .st _ _ | .sti _ _ | .str _ _ _ | .rti | .reserved => exec i s

/-- One step at the parameters `cfg` (R100; `P_STAT_COUNT_FETCH` enters in the fetch). -/
def stepAt (cfg : Config) (s : State) : Result :=
  if s.runState = .halted then .next s
  else execAt cfg (decode (fetch cfg s).1) (fetch cfg s).2

/-- The machine at the parameters `cfg`, as the host's interface takes one; `Sys2Proof.core` has the spec values. -/
def machineAt (cfg : Config) : Host.Core :=
  { State := State, Fault := Fault, Refusal := Refusal, step := stepAt cfg, reset := State.reset }

end Sys2Proof.Machine
end

