-- ==== Sys2Proof/Machine/HostInterface.lean ====
section
/-! DEFINITION. The host's operations on the engine, each one atomic transaction on its state
(spec/70_reset_and_hazards.md R290-R308). -/

namespace Sys2Proof.Machine

/-- `reset()`: every piece of state to its reset value; the supplier is host wiring and is kept (R46, R290). -/
def hostReset (s : State) : State :=
  { State.reset with supplier := s.supplier, supplierCalls := s.supplierCalls }

/-- The words of an image written to the raw array from `origin` on, addresses mod 2^16, in order (R291). -/
def installWords : Word → List Word → State → State
  | _, [], s => s
  | a, w :: ws, s => installWords (a + 1#16) ws (rawWrite s a w)

/-- `load(origin, words)` (R291). -/
def hostLoad (origin : Word) (words : List Word) (s : State) : State :=
  { setPc (installWords origin words s) origin with runState := .ready }

/-- `load_at(origin, words)`: the words alone (R292). -/
def hostLoadAt (origin : Word) (words : List Word) (s : State) : State := installWords origin words s

/-- `supply(c)`: append to the input buffer; a waiting engine becomes ready (R305). -/
def hostSupply (c : Byte) (s : State) : State :=
  { s with
    buffer := s.buffer ++ [c]
    runState := if s.runState = .waitingForInput then .ready else s.runState }

/-- `set_supplier(f)`: install a supplier, given by its coming answers (R306; notes/assumptions/2.md). -/
def hostSetSupplier (answers : List (Option Byte)) (s : State) : State := { s with supplier := some answers }

/-- `clear_supplier()` (R306). -/
def hostClearSupplier (s : State) : State := { s with supplier := none }

/-- What the host's `step()` makes of a step: the state, with the Bool "still runnable" (R301). -/
def reportStep : Result → Host.Outcome (State × Bool) Fault Refusal
  | .next t => .next (t, decide (t.runState = .ready))
  | .fault r => .fault r
  | .refused r => .refused r

/-- The host's `step()` at the parameters `cfg` (R301, R11). -/
def hostStepAt (cfg : Config) (s : State) : Host.Outcome (State × Bool) Fault Refusal := reportStep (stepAt cfg s)

/-- The host's `step()` (R301). -/
def hostStep (s : State) : Host.Outcome (State × Bool) Fault Refusal := reportStep (step s)

/-- The result of `run` (R303). -/
structure RunResult where
  completed : Bool
  steps : Nat
  waitingForInput : Bool
  deriving DecidableEq, Repr

/-- `run`'s loop over a step function, with `budget` steps left and `steps` done (R303). -/
def runLoop (next : State → Result) : Nat → Nat → State → Host.Outcome (State × RunResult) Fault Refusal
  | 0, steps, s =>
    if s.runState = .halted then .next (s, ⟨true, steps, false⟩)
    else .next (s, ⟨false, steps, decide (s.runState = .waitingForInput)⟩)
  | budget + 1, steps, s =>
    if s.runState = .halted then .next (s, ⟨true, steps, false⟩)
    else match next s with
      | .next t =>
        if t.runState = .waitingForInput then .next (t, ⟨false, steps, true⟩)
        else runLoop next budget (steps + 1) t
      | .fault r => .fault r
      | .refused r => .refused r

/-- `run(max_steps)` at the parameters `cfg` (R303, R11). -/
def hostRunAt (cfg : Config) (maxSteps : Int) (s : State) : Host.Outcome (State × RunResult) Fault Refusal :=
  runLoop (stepAt cfg) maxSteps.toNat 0 s

/-- `run(max_steps)`; a budget of 0 or less executes nothing (R303). -/
def hostRun (maxSteps : Int) (s : State) : Host.Outcome (State × RunResult) Fault Refusal :=
  runLoop step maxSteps.toNat 0 s

/-- The snapshot of `inspect()` (R47, R307). -/
structure Snapshot where
  regs : RegFile
  pc : Word
  flags : Flags
  memory : Memory
  halted : Bool
  output : List Byte
  stats : Stats
  deriving DecidableEq, Repr

/-- `inspect()`: the raw array, no intercept and no side effect (R307). -/
def hostInspect (s : State) : Snapshot :=
  { regs := s.regs, pc := s.pc, flags := s.flags, memory := s.mem
    halted := decide (s.runState = .halted), output := s.output, stats := s.stats }

end Sys2Proof.Machine
end

