-- ==== Sys2Proof/Safety.lean ====
section
/-! DEFINITION. What counts as a safe state and a safe step, and the terms the claims are stated in. -/

namespace Sys2Proof.Machine

/-! ### Safe states and safe steps -/

/-- "Exactly one is true at all times" (R36). -/
def Flags.exactlyOne (f : Flags) : Bool := (f.n && !f.z && !f.p) || (!f.n && f.z && !f.p) || (!f.n && !f.z && f.p)

/-- What every reachable state satisfies: exactly one condition flag is set (R36), and the memory is in its
canonical form, all its addresses inside the 65,536 words (R60). -/
abbrev State.Inv (s : State) : Prop := s.flags.exactlyOne = true ∧ s.mem.wf = true

/-- A safe step answers a next state: it is no refusal (R262), and there are no faults (R260). -/
def StepIsSafe (s : State) : Prop := ∃ t, step s = .next t

/-! ### Terms for values -/

/-- The flags are those of a value: N where it is negative when read as signed, Z where it is zero, P where it is
positive (R36). -/
structure FlagsDescribe (f : Flags) (v : Word) : Prop where
  n : f.n = true ↔ v.toInt < 0
  z : f.z = true ↔ v.toInt = 0
  p : f.p = true ↔ 0 < v.toInt

/-- The 16-bit word of an integer, modulo 2^16 (R13). -/
def word (x : Int) : Word := BitVec.ofInt 16 x

/-! ### Terms for instructions -/

end Sys2Proof.Machine

namespace Sys2Proof

open Machine

/-- The register an instruction writes (R32, at the spec value of `P_TRAP_LINKS_R7`). An input trap writes R0 only
when it completes. -/
def Instr.destination : Instr → Option Reg
  | .addReg dr _ _ | .addImm dr _ _ | .andReg dr _ _ | .andImm dr _ _ | .notReg dr _ => some dr
  | .ld dr _ | .ldi dr _ | .ldr dr _ _ | .lea dr _ => some dr
  | .jsr _ | .jsrr _ => some .r7
  | .getc | .inChar => some .r0
  | .trap v => if v = 0x20#8 ∨ v = 0x23#8 then some .r0 else none
  | .br _ _ _ _ | .jmp _ | .ret | .st _ _ | .sti _ _ | .str _ _ _ | .rti | .reserved
  | .out | .puts | .putsp | .halt => none

/-- The instruction is a blocking input trap (R232). -/
def Instr.isInputTrap : Instr → Bool
  | .getc | .inChar => true
  | .trap v => decide (v = 0x20#8 ∨ v = 0x23#8)
  | .addReg _ _ _ | .addImm _ _ _ | .andReg _ _ _ | .andImm _ _ _ | .notReg _ _ | .br _ _ _ _ | .jmp _ | .ret
  | .jsr _ | .jsrr _ | .ld _ _ | .ldi _ _ | .ldr _ _ _ | .lea _ _ | .st _ _ | .sti _ _ | .str _ _ _ | .rti
  | .reserved | .out | .puts | .putsp | .halt => false

/-- The instruction is the halt trap (R238). -/
def Instr.isHaltTrap : Instr → Bool
  | .halt => true
  | .trap v => decide (v = 0x25#8)
  | .addReg _ _ _ | .addImm _ _ _ | .andReg _ _ _ | .andImm _ _ _ | .notReg _ _ | .br _ _ _ _ | .jmp _ | .ret
  | .jsr _ | .jsrr _ | .ld _ _ | .ldi _ _ | .ldr _ _ _ | .lea _ _ | .st _ _ | .sti _ _ | .str _ _ _ | .rti
  | .reserved | .getc | .out | .puts | .inChar | .putsp => false

/-- The instruction is one of the two string traps (R235, R237). -/
def Instr.isStringTrap : Instr → Bool
  | .puts | .putsp => true
  | .trap v => decide (v = 0x22#8 ∨ v = 0x24#8)
  | .addReg _ _ _ | .addImm _ _ _ | .andReg _ _ _ | .andImm _ _ _ | .notReg _ _ | .br _ _ _ _ | .jmp _ | .ret
  | .jsr _ | .jsrr _ | .ld _ _ | .ldi _ _ | .ldr _ _ _ | .lea _ _ | .st _ _ | .sti _ _ | .str _ _ _ | .rti
  | .reserved | .getc | .out | .inChar | .halt => false

/-- The address an instruction writes to and the value it writes, computed as its meaning computes them (R66):
ST, STI and STR only. -/
def Instr.store (i : Instr) (s : State) : Option (Word × Word) :=
  match i with
  | .st sr off9 => some (pcRelative s off9, readReg s sr)
  | .sti sr off9 => some ((readPointer s off9).1, readReg s sr)
  | .str sr base off6 => some (baseOffset s base off6, readReg s sr)
  | .addReg _ _ _ | .addImm _ _ _ | .andReg _ _ _ | .andImm _ _ _ | .notReg _ _ | .br _ _ _ _ | .jmp _ | .ret
  | .jsr _ | .jsrr _ | .ld _ _ | .ldi _ _ | .ldr _ _ _ | .lea _ _ | .rti | .reserved | .trap _
  | .getc | .out | .puts | .inChar | .putsp | .halt => none

/-! ### Terms for encodings -/

/-- The opcode of an instruction (R108). -/
def Instr.opcode : Instr → BitVec 4
  | .br _ _ _ _ => 0x0#4
  | .addReg _ _ _ | .addImm _ _ _ => 0x1#4
  | .ld _ _ => 0x2#4
  | .st _ _ => 0x3#4
  | .jsr _ | .jsrr _ => 0x4#4
  | .andReg _ _ _ | .andImm _ _ _ => 0x5#4
  | .ldr _ _ _ => 0x6#4
  | .str _ _ _ => 0x7#4
  | .rti => 0x8#4
  | .notReg _ _ => 0x9#4
  | .ldi _ _ => 0xA#4
  | .sti _ _ => 0xB#4
  | .jmp _ | .ret => 0xC#4
  | .reserved => 0xD#4
  | .lea _ _ => 0xE#4
  | .trap _ | .getc | .out | .puts | .inChar | .putsp | .halt => 0xF#4

/-- The bits of a word that the engine does not check (R109), as a mask. -/
def ignoredBits (w : Word) : Word :=
  let op := bits w 12 4
  if (op = 0x1#4 ∨ op = 0x5#4) ∧ bit w 5 = false then 0x0018#16
  else if op = 0x9#4 then 0x003F#16
  else if op = 0xC#4 then 0x0E3F#16
  else if op = 0x4#4 ∧ bit w 11 = false then 0x063F#16
  else if op = 0x8#4 ∨ op = 0xD#4 then 0x0FFF#16
  else if op = 0xF#4 then 0x0F00#16
  else 0x0000#16

/-- What the assembler writes in those bits: ones in NOT's, zeros in all others (R104). -/
def canonicalBits (w : Word) : Word := if bits w 12 4 = 0x9#4 then 0x003F#16 else 0x0000#16

end Sys2Proof

namespace Sys2Proof.Machine

/-! ### Terms for frames -/

/-- The console, the input and the run state are unchanged. -/
structure SameWorld (s t : State) : Prop where
  runState : t.runState = s.runState
  output : t.output = s.output
  buffer : t.buffer = s.buffer
  supplier : t.supplier = s.supplier
  supplierCalls : t.supplierCalls = s.supplierCalls

/-- Every word of the memory array is unchanged. -/
def SameMemory (s t : State) : Prop := ∀ a, rawRead t a = rawRead s a

/-- Every register but `dr` is unchanged. -/
def SameRegsBut (dr : Reg) (s t : State) : Prop := ∀ r, r ≠ dr → readReg t r = readReg s r

/-- Every register is unchanged. -/
def SameRegs (s t : State) : Prop := ∀ r, readReg t r = readReg s r

/-- What an instruction that only writes a register, the flags and perhaps the PC leaves unchanged. -/
structure OnlyRegister (dr : Reg) (s t : State) : Prop where
  regs : SameRegsBut dr s t
  stats : t.stats = s.stats
  memory : SameMemory s t
  world : SameWorld s t

/-- What an instruction leaves unchanged whose only effects are on the PC and the statistics. -/
structure OnlyControl (s t : State) : Prop where
  regs : SameRegs s t
  flags : t.flags = s.flags
  memory : SameMemory s t
  world : SameWorld s t

/-- What a trap leaves unchanged whose only effect is on the console output and, by its reads, on the input buffer. -/
structure OnlyConsole (s t : State) : Prop where
  regs : SameRegs s t
  pc : t.pc = s.pc
  flags : t.flags = s.flags
  stats : t.stats = s.stats
  memory : SameMemory s t
  runState : t.runState = s.runState
  supplier : t.supplier = s.supplier
  supplierCalls : t.supplierCalls = s.supplierCalls

/-- What a load leaves unchanged; its reads may consume a pending character, which the statement says. -/
structure OnlyLoad (dr : Reg) (s t : State) : Prop where
  regs : SameRegsBut dr s t
  pc : t.pc = s.pc
  memory : SameMemory s t
  runState : t.runState = s.runState
  output : t.output = s.output
  supplier : t.supplier = s.supplier
  supplierCalls : t.supplierCalls = s.supplierCalls

/-- What a store leaves unchanged beside its write. -/
structure OnlyStore (s t : State) : Prop where
  regs : SameRegs s t
  pc : t.pc = s.pc
  flags : t.flags = s.flags
  supplier : t.supplier = s.supplier
  supplierCalls : t.supplierCalls = s.supplierCalls

/-- What a write of `v` at `a` through the intercept does (R65, R73, R75, R76), `t` against `s`: the array word there
is `v`, but at DDR and MCR, which store nothing; every other array word is unchanged; DDR appends the low byte to the
output; MCR halts where bit 15 is 0. -/
structure Wrote (a v : Word) (s t : State) : Prop where
  stored : a ≠ 0xFE06#16 → a ≠ 0xFFFE#16 → rawRead t a = v
  deviceWord : a = 0xFE06#16 ∨ a = 0xFFFE#16 → rawRead t a = rawRead s a
  elsewhere : ∀ b, b ≠ a → rawRead t b = rawRead s b
  emitted : a = 0xFE06#16 → t.output = s.output ++ [v.extractLsb' 0 8]
  output : a ≠ 0xFE06#16 → t.output = s.output
  halted : a = 0xFFFE#16 → v.getLsbD 15 = false → t.runState = .halted
  runState : a ≠ 0xFFFE#16 ∨ v.getLsbD 15 = true → t.runState = s.runState

/-- What a completed input trap leaves unchanged: the character is in R0, and the buffer and the supplier are as
`take_input()` leaves them (R42). -/
structure OnlyReceived (s t : State) : Prop where
  regs : SameRegsBut .r0 s t
  pc : t.pc = s.pc
  stats : t.stats = s.stats
  memory : SameMemory s t
  runState : t.runState = s.runState
  buffer : t.buffer = (takeInput s).2.buffer
  supplier : t.supplier = (takeInput s).2.supplier
  supplierCalls : t.supplierCalls = (takeInput s).2.supplierCalls

/-- A blocked input trap (R239): the PC back by one, the instruction uncounted, waiting; the supplier has been asked
where one is installed; nothing else has changed. -/
structure Blocked (s t : State) : Prop where
  regs : SameRegs s t
  flags : t.flags = s.flags
  pc : t.pc = s.pc - 1#16
  stats : t.stats = { s.stats with instructions := s.stats.instructions - 1 }
  runState : t.runState = .waitingForInput
  memory : SameMemory s t
  output : t.output = s.output
  buffer : t.buffer = s.buffer
  supplier : t.supplier = (takeInput s).2.supplier
  supplierCalls : t.supplierCalls = (takeInput s).2.supplierCalls

/-! ### Terms for strings -/

/-- The words a string trap reads from address `a` on, through the intercept, up to and without the terminator, and
the state its reads leave (R235, decision D30). -/
inductive ReadsString : State → Word → List Word → State → Prop where
  | done (s : State) (a : Word) : (memRead s a).1 = 0#16 → ReadsString s a [] (memRead s a).2
  | more (s : State) (a : Word) (ws : List Word) (t : State) : (memRead s a).1 ≠ 0#16 →
      ReadsString (memRead s a).2 (a + 1#16) ws t → ReadsString s a ((memRead s a).1 :: ws) t

/-- One instruction after another, each executed on the state the one before it left: a straight-line sequence that
reads no PC (R158). -/
def execAll : List Instr → State → Host.Outcome State Fault Refusal
  | [], s => .next s
  | i :: is, s =>
    match exec i s with
    | .next t => execAll is t
    | .fault r => .fault r
    | .refused r => .refused r

end Sys2Proof.Machine
end

