-- ==== Sys2Proof/Certificates/Slice0/Obligations.lean ====
section
/-! DEFINITION. The statements for the provers. Each docstring names the rules of spec/ it formalises. Every statement
is about the instruction's meaning on the state after the fetch (its PC already incremented, R101), but for those
that speak of `step`. -/

open Sys2Proof Sys2Proof.Machine

/-! ### Encoding -/

/-- R104, R105, R108: the canonical word of every well-formed instruction decodes to that instruction, whatever its
operands. -/
def Obligations.DecodeOfEncodeIsTheInstruction : Prop := ∀ i : Instr, i.WellFormed → decode (encode i) = i

/-- R109: two words decode alike exactly where they agree outside the bits the engine does not check; a word executes
like its canonical word; and the canonical word has the assembler's values in those bits. -/
def Obligations.DecodeIgnoresExactlyTheUncheckedBits : Prop :=
  (∀ w w' : Word, decode w = decode w' ↔ w &&& ~~~ignoredBits w = w' &&& ~~~ignoredBits w') ∧
  (∀ w : Word, encode (decode w) = (w &&& ~~~ignoredBits w) ||| canonicalBits w) ∧
  (∀ (w : Word) (s : State), exec (decode w) s = exec (decode (encode (decode w))) s)

/-- R102: the opcode is `ir[15:12]`, and every word is a (well-formed) instruction of that opcode. -/
def Obligations.EveryWordIsAnInstructionOfItsOpcode : Prop :=
  ∀ w : Word, (decode w).WellFormed ∧ (decode w).opcode = w.extractLsb' 12 4

/-- Words of the worked examples of 40_operate.md to 43_trap.md, and words with other values in the ignored bits
(R109), decode to the instructions the examples name. -/
def Obligations.WorkedExampleWordsDecode : Prop :=
  decode 0x147D#16 = .addImm .r2 .r1 (-3) ∧ decode 0x165A#16 = .addReg .r3 .r1 .r2 ∧
  decode 0x5067#16 = .andImm .r0 .r1 7 ∧ decode 0x98C0#16 = .notReg .r4 .r3 ∧
  decode 0x0402#16 = .br false true false 2 ∧ decode 0xCFFF#16 = .ret ∧ decode 0x4803#16 = .jsr 3 ∧
  decode 0x40C0#16 = .jsrr .r3 ∧ decode 0x2202#16 = .ld .r1 2 ∧ decode 0xA001#16 = .ldi .r0 1 ∧
  decode 0x66BF#16 = .ldr .r3 .r2 (-1) ∧ decode 0xE002#16 = .lea .r0 2 ∧ decode 0x3201#16 = .st .r1 1 ∧
  decode 0xB001#16 = .sti .r0 1 ∧ decode 0x7943#16 = .str .r4 .r5 3 ∧ decode 0x8000#16 = .rti ∧
  decode 0xD123#16 = .reserved ∧ decode 0xF026#16 = .trap 0x26 ∧ decode 0xFF25#16 = .halt

/-! ### Operate instructions -/

/-- R150, ADD: the words of opcode 0x1 and their fields; both forms put the sum modulo 2^16 into DR, recompute the
flags from it, and change nothing else. -/
def Obligations.AddPutsTheSumInDr : Prop :=
  (∀ w : Word, bits w 12 4 = 0x1#4 → decode w =
    if bit w 5 then .addImm (regField w 9) (regField w 6) (bits w 0 5)
    else .addReg (regField w 9) (regField w 6) (regField w 0)) ∧
  (∀ (dr sr1 sr2 : Reg) (s : State), ∃ t, exec (.addReg dr sr1 sr2) s = .next t ∧
    readReg t dr = word ((readReg s sr1).toNat + (readReg s sr2).toNat) ∧
    FlagsDescribe t.flags (readReg t dr) ∧ t.pc = s.pc ∧ OnlyRegister dr s t) ∧
  (∀ (dr sr1 : Reg) (imm5 : BitVec 5) (s : State), ∃ t, exec (.addImm dr sr1 imm5) s = .next t ∧
    readReg t dr = word ((readReg s sr1).toNat + imm5.toInt) ∧
    FlagsDescribe t.flags (readReg t dr) ∧ t.pc = s.pc ∧ OnlyRegister dr s t)

/-- R152, AND: the words of opcode 0x5 and their fields; both forms put the bitwise AND into DR, recompute the flags
from it, and change nothing else. -/
def Obligations.AndPutsTheConjunctionInDr : Prop :=
  (∀ w : Word, bits w 12 4 = 0x5#4 → decode w =
    if bit w 5 then .andImm (regField w 9) (regField w 6) (bits w 0 5)
    else .andReg (regField w 9) (regField w 6) (regField w 0)) ∧
  (∀ (dr sr1 sr2 : Reg) (s : State), ∃ t, exec (.andReg dr sr1 sr2) s = .next t ∧
    (∀ k, (readReg t dr).getLsbD k = ((readReg s sr1).getLsbD k && (readReg s sr2).getLsbD k)) ∧
    FlagsDescribe t.flags (readReg t dr) ∧ t.pc = s.pc ∧ OnlyRegister dr s t) ∧
  (∀ (dr sr1 : Reg) (imm5 : BitVec 5) (s : State), ∃ t, exec (.andImm dr sr1 imm5) s = .next t ∧
    (∀ k, (readReg t dr).getLsbD k = ((readReg s sr1).getLsbD k && (word imm5.toInt).getLsbD k)) ∧
    FlagsDescribe t.flags (readReg t dr) ∧ t.pc = s.pc ∧ OnlyRegister dr s t)

/-- R154, NOT: the words of opcode 0x9 and their fields; every bit of DR is the complement of the source's, the flags
are recomputed from it, and nothing else changes; the assembler's word has ones in bits 5:0. -/
def Obligations.NotPutsTheComplementInDr : Prop :=
  (∀ w : Word, bits w 12 4 = 0x9#4 → decode w = .notReg (regField w 9) (regField w 6)) ∧
  (∀ (dr sr : Reg) (s : State), ∃ t, exec (.notReg dr sr) s = .next t ∧
    (∀ k < 16, (readReg t dr).getLsbD k = !(readReg s sr).getLsbD k) ∧
    FlagsDescribe t.flags (readReg t dr) ∧ t.pc = s.pc ∧ OnlyRegister dr s t) ∧
  (∀ dr sr : Reg, bits (encode (.notReg dr sr)) 0 6 = 0x3F#6)

/-- R156 (which the spec derives from R150 and R36): one addition serves the unsigned and the signed reading, both
modulo 2^16, and N and P describe the wrapped result, not the true sum. -/
def Obligations.AdditionIsOneForSignedAndUnsigned : Prop :=
  ∀ (dr sr1 sr2 : Reg) (s : State), ∃ t, exec (.addReg dr sr1 sr2) s = .next t ∧
    (readReg t dr).toNat = ((readReg s sr1).toNat + (readReg s sr2).toNat) % 65536 ∧
    (readReg t dr).toInt = ((readReg s sr1).toInt + (readReg s sr2).toInt).bmod 65536 ∧
    (t.flags.n = true ↔ ((readReg s sr1).toInt + (readReg s sr2).toInt).bmod 65536 < 0) ∧
    (t.flags.p = true ↔ 0 < ((readReg s sr1).toInt + (readReg s sr2).toInt).bmod 65536)

/-- R158 (which the spec derives from R150, R152 and R154): the idioms of the ALU: negate, subtract, shift left, clear,
copy (both spellings), test, OR. -/
def Obligations.AluIdiomsCompute : Prop :=
  ∀ s : State,
    (∃ t, execAll [.notReg .r1 .r0, .addImm .r1 .r1 1] s = .next t ∧ readReg t .r1 = -readReg s .r0) ∧
    (∃ t, execAll [.notReg .r2 .r1, .addImm .r2 .r2 1, .addReg .r2 .r0 .r2] s = .next t ∧
      readReg t .r2 = readReg s .r0 - readReg s .r1 ∧
      FlagsDescribe t.flags (readReg s .r0 - readReg s .r1)) ∧
    (∃ t, execAll [.addReg .r0 .r0 .r0] s = .next t ∧ readReg t .r0 = readReg s .r0 <<< 1) ∧
    (∃ t, execAll [.andImm .r0 .r0 0] s = .next t ∧ readReg t .r0 = 0#16 ∧ t.flags = ⟨false, true, false⟩) ∧
    (∃ t, execAll [.addImm .r1 .r0 0] s = .next t ∧ readReg t .r1 = readReg s .r0 ∧
      FlagsDescribe t.flags (readReg s .r0)) ∧
    (∃ t, execAll [.andImm .r1 .r0 (-1)] s = .next t ∧ readReg t .r1 = readReg s .r0 ∧
      FlagsDescribe t.flags (readReg s .r0)) ∧
    (∃ t, execAll [.addImm .r0 .r0 0] s = .next t ∧ readReg t .r0 = readReg s .r0 ∧
      FlagsDescribe t.flags (readReg s .r0)) ∧
    (∃ t, execAll [.notReg .r0 .r0, .notReg .r1 .r1, .andReg .r2 .r0 .r1, .notReg .r2 .r2] s = .next t ∧
      readReg t .r2 = readReg s .r0 ||| readReg s .r1)

/-! ### Loads and LEA -/

/-- R170, LD: the words of opcode 0x2; the word read through the intercept at the PC-relative address goes into DR,
the flags follow it, one memory read is counted, and nothing else changes but a character the read may consume. -/
def Obligations.LdLoadsPcRelative : Prop :=
  (∀ w : Word, bits w 12 4 = 0x2#4 → decode w = .ld (regField w 9) (bits w 0 9)) ∧
  (∀ (dr : Reg) (off9 : BitVec 9) (s : State), ∃ t, exec (.ld dr off9) s = .next t ∧
    readReg t dr = (memRead s (word (s.pc.toNat + off9.toInt))).1 ∧
    FlagsDescribe t.flags (readReg t dr) ∧
    t.buffer = (memRead s (word (s.pc.toNat + off9.toInt))).2.buffer ∧
    t.stats = { s.stats with memReads := s.stats.memReads + 1 } ∧ OnlyLoad dr s t)

/-- R172, LDI: the words of opcode 0xA; two reads through the intercept, the pointer first and the data at the address
it holds, the second in the state the first one leaves; two memory reads are counted. -/
def Obligations.LdiLoadsThroughThePointer : Prop :=
  (∀ w : Word, bits w 12 4 = 0xA#4 → decode w = .ldi (regField w 9) (bits w 0 9)) ∧
  (∀ (dr : Reg) (off9 : BitVec 9) (s s1 : State) (ea : Word),
    memRead s (word (s.pc.toNat + off9.toInt)) = (ea, s1) →
    ∃ t, exec (.ldi dr off9) s = .next t ∧
      readReg t dr = (memRead s1 ea).1 ∧ FlagsDescribe t.flags (readReg t dr) ∧
      t.buffer = (memRead s1 ea).2.buffer ∧
      t.stats = { s.stats with memReads := s.stats.memReads + 2 } ∧ OnlyLoad dr s t)

/-- R174, LDR: the words of opcode 0x6; as LD at the base+offset address, computed from the old value of the base
register also where DR is the base register. -/
def Obligations.LdrLoadsBaseOffset : Prop :=
  (∀ w : Word, bits w 12 4 = 0x6#4 → decode w = .ldr (regField w 9) (regField w 6) (bits w 0 6)) ∧
  (∀ (dr base : Reg) (off6 : BitVec 6) (s : State), ∃ t, exec (.ldr dr base off6) s = .next t ∧
    readReg t dr = (memRead s (word ((readReg s base).toNat + off6.toInt))).1 ∧
    FlagsDescribe t.flags (readReg t dr) ∧
    t.buffer = (memRead s (word ((readReg s base).toNat + off6.toInt))).2.buffer ∧
    t.stats = { s.stats with memReads := s.stats.memReads + 1 } ∧ OnlyLoad dr s t)

/-- R176, LEA: the words of opcode 0xE; the PC-relative address itself goes into DR, the flags follow it; no memory
access, nothing else changes. -/
def Obligations.LeaLoadsTheAddress : Prop :=
  (∀ w : Word, bits w 12 4 = 0xE#4 → decode w = .lea (regField w 9) (bits w 0 9)) ∧
  (∀ (dr : Reg) (off9 : BitVec 9) (s : State), ∃ t, exec (.lea dr off9) s = .next t ∧
    readReg t dr = word (s.pc.toNat + off9.toInt) ∧ FlagsDescribe t.flags (readReg t dr) ∧
    t.pc = s.pc ∧ OnlyRegister dr s t)

/-! ### Stores -/

/-- R178, ST: the words of opcode 0x3; one write through the intercept of the register's value at the PC-relative
address, one memory write counted, nothing else. -/
def Obligations.StStoresPcRelative : Prop :=
  (∀ w : Word, bits w 12 4 = 0x3#4 → decode w = .st (regField w 9) (bits w 0 9)) ∧
  (∀ (sr : Reg) (off9 : BitVec 9) (s : State), s.mem.wf = true → ∃ t, exec (.st sr off9) s = .next t ∧
    Wrote (word (s.pc.toNat + off9.toInt)) (readReg s sr) s t ∧ t.buffer = s.buffer ∧
    t.stats = { s.stats with memWrites := s.stats.memWrites + 1 } ∧ OnlyStore s t)

/-- R180, STI: the words of opcode 0xB; the pointer is read through the intercept, then the register's value is written
at the address it holds; one memory read and one memory write are counted. -/
def Obligations.StiStoresThroughThePointer : Prop :=
  (∀ w : Word, bits w 12 4 = 0xB#4 → decode w = .sti (regField w 9) (bits w 0 9)) ∧
  (∀ (sr : Reg) (off9 : BitVec 9) (s s1 : State) (ea : Word), s.mem.wf = true →
    memRead s (word (s.pc.toNat + off9.toInt)) = (ea, s1) → ∃ t, exec (.sti sr off9) s = .next t ∧
    Wrote ea (readReg s sr) s t ∧ t.buffer = s1.buffer ∧
    t.stats = { s.stats with memReads := s.stats.memReads + 1, memWrites := s.stats.memWrites + 1 } ∧
    OnlyStore s t)

/-- R182, STR: the words of opcode 0x7; as ST at the base+offset address. -/
def Obligations.StrStoresBaseOffset : Prop :=
  (∀ w : Word, bits w 12 4 = 0x7#4 → decode w = .str (regField w 9) (regField w 6) (bits w 0 6)) ∧
  (∀ (sr base : Reg) (off6 : BitVec 6) (s : State), s.mem.wf = true → ∃ t, exec (.str sr base off6) s = .next t ∧
    Wrote (word ((readReg s base).toNat + off6.toInt)) (readReg s sr) s t ∧ t.buffer = s.buffer ∧
    t.stats = { s.stats with memWrites := s.stats.memWrites + 1 } ∧ OnlyStore s t)

/-! ### The device registers -/

/-- R69, R70, R71: a load from KBSR gives 0x8000 exactly where the input buffer holds a character, else 0x0000, with no
side effect; one from KBDR takes the front character, zero-extended, or gives 0x0000 and takes nothing; neither looks
at the supplier, nor calls it. -/
def Obligations.KeyboardRegistersShowTheInputBuffer : Prop :=
  (∀ s : State, memRead s 0xFE00#16 = (if s.buffer = [] then 0x0000#16 else 0x8000#16, s)) ∧
  (∀ (s : State) (c : Byte) (rest : List Byte), s.buffer = c :: rest →
    memRead s 0xFE02#16 = (c.setWidth 16, { s with buffer := rest })) ∧
  (∀ s : State, s.buffer = [] → memRead s 0xFE02#16 = (0x0000#16, s)) ∧
  (∀ (dr base : Reg) (s : State) (c : Byte) (rest : List Byte), readReg s base = 0xFE02#16 → s.buffer = c :: rest →
    ∃ t, exec (.ldr dr base 0) s = .next t ∧ (readReg t dr).toNat = c.toNat ∧ t.buffer = rest ∧
      t.supplier = s.supplier ∧ t.supplierCalls = s.supplierCalls ∧
      ((memRead t 0xFE00#16).1 = 0x8000#16 ↔ rest ≠ []))

/-- R72, R74: a load from DSR always gives 0x8000; one from MCR gives 0x8000 while the engine is not halted, 0x0000
where it is, whatever the array holds there; neither read has a side effect. -/
def Obligations.StatusRegistersReadReadyAndRunning : Prop :=
  (∀ s : State, memRead s 0xFE04#16 = (0x8000#16, s)) ∧
  (∀ s : State, memRead s 0xFFFE#16 = (if s.runState = .halted then 0x0000#16 else 0x8000#16, s)) ∧
  (∀ (dr base : Reg) (s : State), readReg s base = 0xFE04#16 ∨ (readReg s base = 0xFFFE#16 ∧ s.runState ≠ .halted) →
    ∃ t, exec (.ldr dr base 0) s = .next t ∧ readReg t dr = 0x8000#16 ∧ t.flags = ⟨true, false, false⟩)

/-- R73: a store at DDR appends the low 8 bits of the value to the console output; the array word there is not changed,
nor anything but the output and the count of writes. -/
def Obligations.DisplayWriteEmitsAndStoresNothing : Prop :=
  ∀ (sr base : Reg) (off6 : BitVec 6) (s : State), baseOffset s base off6 = 0xFE06#16 →
    ∃ t, exec (.str sr base off6) s = .next t ∧ t.output = s.output ++ [(readReg s sr).extractLsb' 0 8] ∧
      SameMemory s t ∧ t.runState = s.runState ∧ t.buffer = s.buffer ∧ OnlyStore s t

/-- R75: a store at MCR with bit 15 zero halts the engine, its count of writes included, and (R264, R100; the spec
derives the point as R266) the next step does nothing; with bit 15 one it has no effect; neither stores anything. -/
def Obligations.MachineControlWriteHaltsOnZeroTopBit : Prop :=
  ∀ (sr base : Reg) (off6 : BitVec 6) (s : State), baseOffset s base off6 = 0xFFFE#16 →
    ∃ t, exec (.str sr base off6) s = .next t ∧
      t.runState = (if (readReg s sr).getLsbD 15 then s.runState else .halted) ∧
      t.stats = { s.stats with memWrites := s.stats.memWrites + 1 } ∧
      SameMemory s t ∧ t.output = s.output ∧ t.buffer = s.buffer ∧ OnlyStore s t ∧
      ((readReg s sr).getLsbD 15 = false → step t = .next t)

/-- R76, R81: what a store puts at an address without a device, a load from that address gives back, whatever registers
and offsets name the address; a store at KBSR, KBDR or DSR is in the array but what a read there gives is unchanged. -/
def Obligations.LoadAfterStoreGivesTheValueStored : Prop :=
  (∀ (sr dr b1 b2 : Reg) (o1 o2 : BitVec 6) (s t : State), s.mem.wf = true →
    baseOffset s b1 o1 ∉ [0xFE00#16, 0xFE02#16, 0xFE04#16, 0xFE06#16, 0xFFFE#16] →
    exec (.str sr b1 o1) s = .next t → baseOffset t b2 o2 = baseOffset s b1 o1 →
    ∃ u, exec (.ldr dr b2 o2) t = .next u ∧ readReg u dr = readReg s sr) ∧
  (∀ (sr b1 : Reg) (o1 : BitVec 6) (s t : State), s.mem.wf = true →
    baseOffset s b1 o1 ∈ [0xFE00#16, 0xFE02#16, 0xFE04#16] → exec (.str sr b1 o1) s = .next t →
    rawRead t (baseOffset s b1 o1) = readReg s sr ∧
    (memRead t (baseOffset s b1 o1)).1 = (memRead s (baseOffset s b1 o1)).1)

/-! ### Control transfer -/

/-- R200, BR: the words of opcode 0x0; the branch is taken where a requested flag is set, the target is PC-relative,
exactly one branch counter advances, nothing else changes; with all three bits it is always taken, with none never. -/
def Obligations.BrBranchesOnTheRequestedFlags : Prop :=
  (∀ w : Word, bits w 12 4 = 0x0#4 → decode w = .br (bit w 11) (bit w 10) (bit w 9) (bits w 0 9)) ∧
  (∀ (n z p : Bool) (off9 : BitVec 9) (s : State),
    (n && s.flags.n || z && s.flags.z || p && s.flags.p) = true → ∃ t, exec (.br n z p off9) s = .next t ∧
      t.pc = word (s.pc.toNat + off9.toInt) ∧
      t.stats = { s.stats with branchesTaken := s.stats.branchesTaken + 1 } ∧ OnlyControl s t) ∧
  (∀ (n z p : Bool) (off9 : BitVec 9) (s : State),
    (n && s.flags.n || z && s.flags.z || p && s.flags.p) = false → ∃ t, exec (.br n z p off9) s = .next t ∧
      t.pc = s.pc ∧
      t.stats = { s.stats with branchesNotTaken := s.stats.branchesNotTaken + 1 } ∧ OnlyControl s t) ∧
  (∀ (off9 : BitVec 9) (s : State), s.flags.exactlyOne = true → ∃ t, exec (.br true true true off9) s = .next t ∧
      t.pc = word (s.pc.toNat + off9.toInt)) ∧
  (∀ (off9 : BitVec 9) (s : State), ∃ t, exec (.br false false false off9) s = .next t ∧ t.pc = s.pc)

/-- R204, JMP and RET: the words of opcode 0xC, RET those with R7 as the base, which the assembler writes
0xC1C0; the PC becomes the register's value, nothing else changes. -/
def Obligations.JmpAndRetJumpThroughARegister : Prop :=
  (∀ w : Word, bits w 12 4 = 0xC#4 → decode w = if regField w 6 = .r7 then .ret else .jmp (regField w 6)) ∧
  (∀ (base : Reg) (s : State), ∃ t, exec (.jmp base) s = .next t ∧
    t.pc = readReg s base ∧ t.stats = s.stats ∧ OnlyControl s t) ∧
  (∀ s : State, ∃ t, exec .ret s = .next t ∧ t.pc = readReg s .r7 ∧ t.stats = s.stats ∧ OnlyControl s t) ∧
  encode .ret = 0xC1C0#16

/-- R206, JSR: the words with bits 15:11 = 01001; R7 gets the address after the instruction, the flags follow it (at
the spec value of `P_LINK_SETS_CC`, true; with the value false they stay), the PC becomes the PC-relative target, nothing
else changes. -/
def Obligations.JsrLinksAndJumps : Prop :=
  (∀ w : Word, bits w 11 5 = 0x9#5 → decode w = .jsr (bits w 0 11)) ∧
  (∀ (off11 : BitVec 11) (s : State), ∃ t, exec (.jsr off11) s = .next t ∧
    t.pc = word (s.pc.toNat + off11.toInt) ∧ readReg t .r7 = s.pc ∧ FlagsDescribe t.flags s.pc ∧
    OnlyRegister .r7 s t) ∧
  (∀ (cfg : Config) (off11 : BitVec 11) (s : State), ∃ t, execAt cfg (.jsr off11) s = .next t ∧
    t.pc = word (s.pc.toNat + off11.toInt) ∧ readReg t .r7 = s.pc ∧ OnlyRegister .r7 s t ∧
    (cfg.linkSetsCc = true → FlagsDescribe t.flags s.pc) ∧ (cfg.linkSetsCc = false → t.flags = s.flags))

/-- R208, JSRR: the words with bits 15:11 = 01000; as JSR, to the value the base register held before R7 was written. -/
def Obligations.JsrrLinksAndJumpsToTheOldBase : Prop :=
  (∀ w : Word, bits w 11 5 = 0x8#5 → decode w = .jsrr (regField w 6)) ∧
  (∀ (base : Reg) (s : State), ∃ t, exec (.jsrr base) s = .next t ∧
    t.pc = readReg s base ∧ readReg t .r7 = s.pc ∧ FlagsDescribe t.flags s.pc ∧ OnlyRegister .r7 s t) ∧
  (∀ (cfg : Config) (base : Reg) (s : State), ∃ t, execAt cfg (.jsrr base) s = .next t ∧
    t.pc = readReg s base ∧ readReg t .r7 = s.pc ∧ OnlyRegister .r7 s t ∧
    (cfg.linkSetsCc = true → FlagsDescribe t.flags s.pc) ∧ (cfg.linkSetsCc = false → t.flags = s.flags))

/-- R210, R212: every word of the opcodes 0x8 and 0xD is a no-op beyond its fetch. -/
def Obligations.RtiAndTheReservedOpcodeDoNothing : Prop :=
  (∀ w : Word, bits w 12 4 = 0x8#4 → decode w = .rti) ∧
  (∀ w : Word, bits w 12 4 = 0xD#4 → decode w = .reserved) ∧
  (∀ s : State, exec .rti s = .next s ∧ exec .reserved s = .next s) ∧
  (∀ s : State, s.runState ≠ .halted → fetchIntercepted s.pc = false →
    bits (rawRead s s.pc) 12 4 = 0x8#4 ∨ bits (rawRead s s.pc) 12 4 = 0xD#4 →
    step s = .next { s with
      runState := .ready, pc := s.pc + 1#16,
      stats := { s.stats with instructions := s.stats.instructions + 1 } })

/-- R214 (which the spec derives from R204 to R208): a call and the return through R7 come back to the instruction
after the call, whatever the called code did, if it left R7 as the call wrote it. -/
def Obligations.ReturnGoesBackBehindTheCall : Prop :=
  ∀ (i : Instr) (s t u : State), (∃ off11, i = .jsr off11) ∨ (∃ base, i = .jsrr base) →
    exec i s = .next t → readReg u .r7 = readReg t .r7 → ∃ v, exec .ret u = .next v ∧ v.pc = s.pc

/-! ### Traps -/

/-- R231, R230: every TRAP word selects its service by its low 8 bits, whatever bits 11:8 are; TRAP as a term behaves
as the service of its vector. -/
def Obligations.TrapVectorSelectsTheService : Prop :=
  (∀ w : Word, bits w 12 4 = 0xF#4 → decode w =
    if bits w 0 8 = 0x20#8 then .getc else if bits w 0 8 = 0x21#8 then .out
    else if bits w 0 8 = 0x22#8 then .puts else if bits w 0 8 = 0x23#8 then .inChar
    else if bits w 0 8 = 0x24#8 then .putsp else if bits w 0 8 = 0x25#8 then .halt else .trap (bits w 0 8)) ∧
  (∀ s : State, exec (.trap 0x20) s = exec .getc s ∧ exec (.trap 0x21) s = exec .out s ∧
    exec (.trap 0x22) s = exec .puts s ∧ exec (.trap 0x23) s = exec .inChar s ∧
    exec (.trap 0x24) s = exec .putsp s ∧ exec (.trap 0x25) s = exec .halt s)

/-- R240: a TRAP with a vector that names no service changes nothing beyond its fetch at the spec value of
`P_UNKNOWN_TRAP`; with the values halt and refuse it halts, and is refused. -/
def Obligations.UnknownTrapFollowsItsParameter : Prop :=
  (∀ (v : BitVec 8) (s : State), isServiceVector v = false → exec (.trap v) s = .next s) ∧
  (∀ (cfg : Config) (v : BitVec 8) (s : State), isServiceVector v = false →
    (cfg.unknownTrap = .nop → execAt cfg (.trap v) s = .next (trapLink cfg s)) ∧
    (cfg.unknownTrap = .halt → execAt cfg (.trap v) s = .next { trapLink cfg s with runState := .halted }) ∧
    (cfg.unknownTrap = .refuse → execAt cfg (.trap v) s = .refused (.unknownTrapVector v)))

/-- R233, R239, GETC: with a character, it goes into R0 zero-extended, the flags follow it, the output is unchanged;
with none, the trap is blocked. With `P_TRAP_LINKS_R7` true the link goes into R7 first, and the flags are still R0's,
the register written last (R37); a blocked one writes neither. -/
def Obligations.GetcReceivesACharacterOrWaits : Prop :=
  (∀ (s : State) (c : Byte), (takeInput s).1 = some c → ∃ t, exec .getc s = .next t ∧
    (readReg t .r0).toNat = c.toNat ∧ FlagsDescribe t.flags (readReg t .r0) ∧ t.output = s.output ∧
    OnlyReceived s t) ∧
  (∀ s : State, (takeInput s).1 = none → ∃ t, exec .getc s = .next t ∧ Blocked s t) ∧
  (∀ (cfg : Config) (s : State) (c : Byte), cfg.trapLinksR7 = true → (takeInput s).1 = some c →
    ∃ t, execAt cfg .getc s = .next t ∧ readReg t .r7 = s.pc ∧ (readReg t .r0).toNat = c.toNat ∧
      FlagsDescribe t.flags (readReg t .r0) ∧ t.output = s.output ∧ t.pc = s.pc ∧
      (∀ r, r ≠ .r0 → r ≠ .r7 → readReg t r = readReg s r) ∧ SameMemory s t) ∧
  (∀ (cfg : Config) (s : State), (takeInput s).1 = none → ∃ t, execAt cfg .getc s = .next t ∧ Blocked s t)

/-- R236, R239, IN: with a character, the prompt and then the character are written, the character goes into R0
zero-extended and the flags follow it; with none, the trap is blocked and nothing is written; so for every value of the
parameters, the link into R7 coming first where `P_TRAP_LINKS_R7` is true. The prompt is `P_IN_PROMPT`, which is OPEN:
this holds for every value of it. -/
def Obligations.InPromptsReceivesAndEchoesOrWaits : Prop :=
  (∀ (s : State) (c : Byte), (takeInput s).1 = some c → ∃ t, exec .inChar s = .next t ∧
    (readReg t .r0).toNat = c.toNat ∧ FlagsDescribe t.flags (readReg t .r0) ∧
    t.output = s.output ++ params.inPrompt ++ [c] ∧ OnlyReceived s t) ∧
  (∀ s : State, (takeInput s).1 = none → ∃ t, exec .inChar s = .next t ∧ Blocked s t) ∧
  (∀ (cfg : Config) (s : State) (c : Byte), (takeInput s).1 = some c →
    ∃ t, execAt cfg .inChar s = .next t ∧ readReg t .r7 = (if cfg.trapLinksR7 then s.pc else readReg s .r7) ∧
      (readReg t .r0).toNat = c.toNat ∧ FlagsDescribe t.flags (readReg t .r0) ∧
      t.output = s.output ++ cfg.inPrompt ++ [c] ∧ t.pc = s.pc ∧
      (∀ r, r ≠ .r0 → r ≠ .r7 → readReg t r = readReg s r) ∧ SameMemory s t) ∧
  (∀ (cfg : Config) (s : State), (takeInput s).1 = none → ∃ t, execAt cfg .inChar s = .next t ∧ Blocked s t)

/-- R42, R232: an input trap, GETC or IN, takes the front of the buffer; only with an empty buffer does it ask the
supplier, once; with an empty buffer and no answer, or no supplier, it waits. -/
def Obligations.InputComesFromTheBufferThenTheSupplier : Prop :=
  ∀ (i : Instr) (s : State), i = .getc ∨ i = .inChar →
    (∀ c rest, s.buffer = c :: rest → ∃ t, exec i s = .next t ∧ readReg t .r0 = c.setWidth 16 ∧
      t.buffer = rest ∧ t.supplier = s.supplier ∧ t.supplierCalls = s.supplierCalls) ∧
    (∀ c answers, s.buffer = [] → s.supplier = some (some c :: answers) → ∃ t, exec i s = .next t ∧
      readReg t .r0 = c.setWidth 16 ∧ t.buffer = [] ∧ t.supplier = some answers ∧
      t.supplierCalls = s.supplierCalls + 1) ∧
    (∀ answers, s.buffer = [] → s.supplier = some (none :: answers) → ∃ t, exec i s = .next t ∧
      t.runState = .waitingForInput ∧ t.supplier = some answers ∧ t.supplierCalls = s.supplierCalls + 1) ∧
    (s.buffer = [] → s.supplier = none → ∃ t, exec i s = .next t ∧
      t.runState = .waitingForInput ∧ t.supplier = none ∧ t.supplierCalls = s.supplierCalls)

/-- R230: with `P_TRAP_LINKS_R7` true, a TRAP that takes no input writes the link, the address after it, into R7 with
its flags, and then does what it does with the parameter false. -/
def Obligations.TrapLinkComesBeforeTheService : Prop :=
  ∀ (cfg : Config) (s : State), cfg.trapLinksR7 = true →
    ∀ (cfg0 : Config) (s1 : State), cfg0 = { cfg with trapLinksR7 := false } →
      s1 = { s with regs := s.regs.set .r7 s.pc, flags := flagsOf s.pc } →
      execAt cfg .out s = execAt cfg0 .out s1 ∧
      execAt cfg .puts s = execAt cfg0 .puts s1 ∧
      execAt cfg .putsp s = execAt cfg0 .putsp s1 ∧
      execAt cfg .halt s = execAt cfg0 .halt s1 ∧
      (∀ v, isServiceVector v = false → execAt cfg (.trap v) s = execAt cfg0 (.trap v) s1)

/-- R234, R238: OUT appends R0's low 8 bits to the output and changes nothing else; HALT halts and changes nothing
else, the output included; a halted engine's step changes nothing. -/
def Obligations.OutEmitsAndHaltHalts : Prop :=
  (∀ s : State, ∃ t, exec .out s = .next t ∧ t.output = s.output ++ [(readReg s .r0).extractLsb' 0 8] ∧
    t.buffer = s.buffer ∧ OnlyConsole s t) ∧
  (∀ s : State, ∃ t, exec .halt s = .next t ∧ t = { s with runState := .halted } ∧ step t = .next t)

/-- R235, PUTS, in full: the words read through the intercept from R0's address up to the terminator are written, one
character a word; registers, flags, PC, memory and statistics are unchanged; PUTS is refused exactly where the first
65,536 words hold no terminator. -/
def Obligations.PutsWritesTheStringItReads : Prop :=
  (∀ (s u : State) (ws : List Word), ReadsString s (readReg s .r0) ws u → ws.length < 65536 →
    ∃ t, exec .puts s = .next t ∧ t.output = s.output ++ ws.map (fun w => w.extractLsb' 0 8) ∧
      t.buffer = u.buffer ∧ OnlyConsole s t) ∧
  (∀ s : State, (¬ ∃ ws u, ReadsString s (readReg s .r0) ws u ∧ ws.length < 65536) ↔
    exec .puts s = .refused .putsNoTerminator)

/-- R237, PUTSP, in full at the spec value emit of `P_PUTSP_ZERO_LOW`: as PUTS, with two characters a word, the low
byte first, a zero high byte left out. -/
def Obligations.PutspWritesThePackedStringItReads : Prop :=
  (∀ (s u : State) (ws : List Word), ReadsString s (readReg s .r0) ws u → ws.length < 65536 →
    ∃ t, exec .putsp s = .next t ∧
      t.output = s.output ++ ws.flatMap (fun w =>
        w.extractLsb' 0 8 :: (if w.extractLsb' 8 8 = 0#8 then [] else [w.extractLsb' 8 8])) ∧
      t.buffer = u.buffer ∧ OnlyConsole s t) ∧
  (∀ s : State, (¬ ∃ ws u, ReadsString s (readReg s .r0) ws u ∧ ws.length < 65536) ↔
    exec .putsp s = .refused .putspNoTerminator)

/-- R235, R237 on plain storage: a string of fewer than 65,536 non-zero words followed by 0x0000, none at a device
register, is written by PUTS and, packed, by PUTSP, across 0xFFFF into 0x0000 as well. -/
def Obligations.StringsInPlainMemoryAreWritten : Prop :=
  ∀ (s : State) (ws : List Word), ws.length < 65536 →
    (∀ i, (h : i < ws.length) → ws[i] ≠ 0#16 ∧ rawRead s (readReg s .r0 + BitVec.ofNat 16 i) = ws[i] ∧
      fetchIntercepted (readReg s .r0 + BitVec.ofNat 16 i) = false) →
    rawRead s (readReg s .r0 + BitVec.ofNat 16 ws.length) = 0#16 →
    fetchIntercepted (readReg s .r0 + BitVec.ofNat 16 ws.length) = false →
    (∃ t, exec .puts s = .next t ∧ t.output = s.output ++ ws.map (fun w => w.extractLsb' 0 8) ∧
      t.buffer = s.buffer ∧ OnlyConsole s t) ∧
    (∃ t, exec .putsp s = .next t ∧
      t.output = s.output ++ ws.flatMap (fun w =>
        w.extractLsb' 0 8 :: (if w.extractLsb' 8 8 = 0#8 then [] else [w.extractLsb' 8 8])) ∧
      t.buffer = s.buffer ∧ OnlyConsole s t)

/-! ### The step -/

/-- R100: a step of a halted engine does nothing; a step of any other sets it ready, reads the word at the PC through
the intercept, and executes the instruction it decodes to, on the state whose PC and instruction count are one further.
So at any values of the parameters, where the fetch counts as a memory read with `P_STAT_COUNT_FETCH` true alone. -/
def Obligations.StepExecutesTheFetchedInstruction : Prop :=
  (∀ s : State, s.runState = .halted → step s = .next s) ∧
  (∀ (s s1 : State) (ir : Word), s.runState ≠ .halted → memRead { s with runState := .ready } s.pc = (ir, s1) →
    step s = exec (decode ir)
      { s1 with pc := s.pc + 1#16, stats := { s.stats with instructions := s.stats.instructions + 1 } }) ∧
  (∀ (cfg : Config) (s : State), s.runState = .halted → stepAt cfg s = .next s) ∧
  (∀ (cfg : Config) (s s1 : State) (ir : Word), s.runState ≠ .halted →
    memRead { s with runState := .ready } s.pc = (ir, s1) →
    stepAt cfg s = execAt cfg (decode ir)
      { s1 with
        pc := s.pc + 1#16
        stats := { s.stats with
          instructions := s.stats.instructions + 1
          memReads := if cfg.statCountFetch then s.stats.memReads + 1 else s.stats.memReads } })

/-- R301: a step of a halted engine changes nothing and returns false; otherwise the host's step returns true
exactly where the engine is ready after it, and a waiting engine's step is the step of the engine made ready. -/
def Obligations.HostStepReportsStillRunnable : Prop :=
  (∀ s : State, s.runState = .halted → hostStep s = .next (s, false)) ∧
  (∀ (s t : State) (b : Bool), hostStep s = .next (t, b) → step s = .next t ∧ (b = true ↔ t.runState = .ready)) ∧
  (∀ s : State, s.runState = .waitingForInput → hostStep s = hostStep { s with runState := .ready })

/-- R239: the whole step of a blocked input trap leaves everything as it was, the instruction count and the PC
included, but for the run state, which is waiting for input, and the supplier, which has been asked. -/
def Obligations.BlockedTrapStepLeavesOnlyTheWait : Prop :=
  ∀ s : State, s.runState ≠ .halted → fetchIntercepted s.pc = false →
    decode (rawRead s s.pc) = .getc ∨ decode (rawRead s s.pc) = .inChar → (takeInput s).1 = none →
    step s = .next { s with
      runState := .waitingForInput
      supplier := (takeInput s).2.supplier
      supplierCalls := (takeInput s).2.supplierCalls }

/-- R239, R305: after a blocked GETC, supplying a character makes the engine ready, and the next step executes the same
trap again, which completes: the character is in R0, the PC and the instruction count are one further, and the buffer
is empty again. -/
def Obligations.SupplyingACharacterCompletesTheBlockedTrap : Prop :=
  ∀ (s t : State) (c : Byte), s.runState ≠ .halted → fetchIntercepted s.pc = false →
    decode (rawRead s s.pc) = .getc → s.buffer = [] → s.supplier = none → step s = .next t →
    (hostSupply c t).runState = .ready ∧ ∃ u, step (hostSupply c t) = .next u ∧ readReg u .r0 = c.setWidth 16 ∧
      u.pc = s.pc + 1#16 ∧ u.stats = { s.stats with instructions := s.stats.instructions + 1 } ∧
      u.buffer = [] ∧ u.output = s.output ∧ u.runState = .ready ∧ SameRegsBut .r0 s u ∧ SameMemory s u

/-- R84 (which the spec derives from R64 and R81): a store to the address of the next instruction, one without a
device, takes effect for the next step: that step executes the word stored. -/
def Obligations.StoredWordIsFetchedByTheNextStep : Prop :=
  ∀ (i : Instr) (s t : State) (v : Word), s.mem.wf = true → s.runState = .ready → i.store s = some (s.pc, v) →
    s.pc ∉ [0xFE00#16, 0xFE02#16, 0xFE04#16, 0xFE06#16, 0xFFFE#16] → exec i s = .next t →
    step t = exec (decode v)
      { t with pc := s.pc + 1#16, stats := { t.stats with instructions := t.stats.instructions + 1 } }

/-- R64, and R77 (which the spec derives from it): a fetch at a readable device register reads the device, not the
array. At KBDR it takes the pending character, if there is one, and the word it makes, or 0x0000, is a branch that is
never taken; at KBSR with an empty buffer it is that branch too; at KBSR with a character pending, at DSR, and at MCR of
an engine that runs, it is an RTI. -/
def Obligations.FetchAtADeviceRegisterReadsTheDevice : Prop :=
  (∀ s : State, s.runState ≠ .halted → s.pc = 0xFE02#16 ∨ (s.pc = 0xFE00#16 ∧ s.buffer = []) →
    step s = .next { s with
      runState := .ready, pc := s.pc + 1#16, buffer := s.buffer.tail
      stats := { s.stats with
        instructions := s.stats.instructions + 1, branchesNotTaken := s.stats.branchesNotTaken + 1 } }) ∧
  (∀ s : State, s.runState ≠ .halted →
    (s.pc = 0xFE00#16 ∧ s.buffer ≠ []) ∨ s.pc = 0xFE04#16 ∨ s.pc = 0xFFFE#16 →
    step s = .next { s with
      runState := .ready, pc := s.pc + 1#16
      stats := { s.stats with instructions := s.stats.instructions + 1 } })

/-! ### Whole-machine rules -/

/-- R36, R60: every step keeps the invariant: exactly one condition flag is set, and the memory is in canonical form
inside the 65,536 words. -/
def Obligations.StepKeepsTheInvariant : Prop := ∀ s t : State, s.Inv → step s = .next t → t.Inv

/-- R36, R46: the invariant holds at reset. -/
def Obligations.ResetSatisfiesTheInvariant : Prop := State.reset.Inv ∧ ∀ s : State, (hostReset s).Inv

/-- R32: no instruction writes a general register but its destination; the others write none. -/
def Obligations.OnlyTheDestinationRegisterChanges : Prop :=
  ∀ (i : Instr) (s t : State), exec i s = .next t → ∀ r, i.destination ≠ some r → readReg t r = readReg s r

/-- R37: an instruction that writes no register leaves the flags alone, as does a blocked input trap; after any other
instruction the flags describe the value its destination holds. -/
def Obligations.FlagsFollowTheRegisterWritten : Prop :=
  ∀ (i : Instr) (s t : State), exec i s = .next t →
    (i.destination = none → t.flags = s.flags) ∧
    (i.isInputTrap = true → (takeInput s).1 = none → t.flags = s.flags) ∧
    (∀ dr, i.destination = some dr → (i.isInputTrap = true → (takeInput s).1 ≠ none) →
      FlagsDescribe t.flags (readReg t dr))

/-- R66: no instruction but ST, STI and STR changes a word of the memory array, and they no word but the one at the
address they store to. -/
def Obligations.OnlyStoresChangeMemory : Prop :=
  ∀ (i : Instr) (s t : State), exec i s = .next t →
    ∀ a, (∀ ea v, i.store s = some (ea, v) → a ≠ ea) → rawRead t a = rawRead s a

/-- R40: no step takes anything from the console output: it appends at most. -/
def Obligations.OutputIsOnlyAppendedTo : Prop := ∀ s t : State, step s = .next t → s.output <+: t.output

/-- R43, R330: over a whole step no statistics counter decreases; the instruction counter advances by one exactly where
an instruction completed, by none where the engine was halted or an input trap was blocked. -/
def Obligations.CountersNeverDecreaseOverAStep : Prop :=
  ∀ s t : State, step s = .next t →
    s.stats.memReads ≤ t.stats.memReads ∧ s.stats.memWrites ≤ t.stats.memWrites ∧
    s.stats.branchesTaken ≤ t.stats.branchesTaken ∧ s.stats.branchesNotTaken ≤ t.stats.branchesNotTaken ∧
    t.stats.instructions = s.stats.instructions +
      (if s.runState = .halted ∨ t.runState = .waitingForInput then 0 else 1)

/-- R263, and R267 (which the spec derives): an instruction executed by a ready engine halts it only if it is the halt
trap or a store at MCR of a value whose bit 15 is zero, and then it does; it makes it wait only if it is an input trap
with no input, and then it does. -/
def Obligations.OnlyTheseEventsHaltOrWait : Prop :=
  ∀ (i : Instr) (s t : State), s.runState = .ready → exec i s = .next t →
    (t.runState = .halted ↔
      i.isHaltTrap = true ∨ ∃ v, i.store s = some (0xFFFE#16, v) ∧ v.getLsbD 15 = false) ∧
    (t.runState = .waitingForInput ↔ i.isInputTrap = true ∧ (takeInput s).1 = none)

/-- R260, R262: no step faults, and the only step that is refused is a PUTS or a PUTSP, whatever the state. -/
def Obligations.OnlyStringTrapsAreRefused : Prop :=
  ∀ s : State, (∃ t, step s = .next t) ∨
    ((decode (fetch params s).1 = .puts ∧ step s = .refused .putsNoTerminator) ∨
      (decode (fetch params s).1 = .putsp ∧ step s = .refused .putspNoTerminator))

/-- R271, R43, R40: nothing a step does depends on the statistics or on the console output: with other ones before it,
a step appends the same characters, and differs in nothing but these two. -/
def Obligations.StatisticsAndOutputInfluenceNoStep : Prop :=
  ∀ (s t : State) (st : Stats) (o : List Byte), step s = .next t →
    ∃ st' cs, t.output = s.output ++ cs ∧
      step { s with stats := st, output := o } = .next { t with stats := st', output := o ++ cs }

/-! ### The host's operations -/

/-- R290, R46: reset puts every register, every memory word, the PC and the statistics at zero, sets Z alone, makes the
engine ready, empties the output and the input buffer, and keeps the supplier; a new engine is in that state with no
supplier (R293). -/
def Obligations.ResetZeroesAllButTheSupplier : Prop :=
  (∀ s : State, (∀ r, readReg (hostReset s) r = 0#16) ∧ (∀ a, rawRead (hostReset s) a = 0#16) ∧
    (hostReset s).pc = 0#16 ∧ (hostReset s).flags = ⟨false, true, false⟩ ∧ (hostReset s).runState = .ready ∧
    (hostReset s).output = [] ∧ (hostReset s).buffer = [] ∧ (hostReset s).stats = ⟨0, 0, 0, 0, 0⟩ ∧
    (hostReset s).supplier = s.supplier) ∧
  (State.reset.supplier = none ∧ hostReset State.reset = State.reset)

/-- R291, R292: load and load-at write the image's words at consecutive addresses modulo 2^16, a later word winning
over an earlier one at the same address, device addresses included, and no other word; load sets the PC to the origin
and the engine ready, load-at neither; nothing else changes. -/
def Obligations.LoadInstallsTheImage : Prop :=
  ∀ (origin : Word) (ws : List Word) (s : State), s.mem.wf = true →
    (∀ i, (h : i < ws.length) → (∀ j, i < j → j < ws.length → BitVec.ofNat 16 j ≠ BitVec.ofNat 16 i) →
      rawRead (hostLoadAt origin ws s) (origin + BitVec.ofNat 16 i) = ws[i]) ∧
    (∀ a, (∀ i < ws.length, a ≠ origin + BitVec.ofNat 16 i) → rawRead (hostLoadAt origin ws s) a = rawRead s a) ∧
    (∃ m, hostLoadAt origin ws s = { s with mem := m } ∧ m.wf = true ∧
      hostLoad origin ws s = { s with mem := m, pc := origin, runState := .ready })

/-- R305, R69: a supplied character goes to the back of the input buffer and is visible to KBSR at once; a waiting
engine becomes ready, a halted one stays halted; nothing else changes. -/
def Obligations.SupplyAppendsAndWakes : Prop :=
  ∀ (c : Byte) (s : State), ∃ t, hostSupply c s = t ∧ t.buffer = s.buffer ++ [c] ∧
    (memRead t 0xFE00#16).1 = 0x8000#16 ∧
    (s.runState = .halted → t.runState = .halted) ∧ (s.runState ≠ .halted → t.runState = .ready) ∧
    t = { s with buffer := t.buffer, runState := t.runState }

/-- R303: what `run` returns: `completed` exactly where the engine is halted; never more steps than the budget; all of
the budget where it neither completed nor waits, or it started waiting with no budget; a budget of zero or less executes
nothing; a halted engine runs no step. -/
def Obligations.RunReturnsWhatEndedIt : Prop :=
  (∀ (n : Int) (s t : State) (r : RunResult), hostRun n s = .next (t, r) →
    (r.completed = true ↔ t.runState = .halted) ∧ (r.waitingForInput = true ↔ t.runState = .waitingForInput) ∧
    r.steps ≤ n.toNat ∧ (r.completed = false → r.waitingForInput = false → r.steps = n.toNat)) ∧
  (∀ (n : Int) (s : State), n ≤ 0 → ∃ r : RunResult, hostRun n s = .next (s, r) ∧ r.steps = 0) ∧
  (∀ (n : Int) (s : State), s.runState = .halted → hostRun n s = .next (s, ⟨true, 0, false⟩))

/-- R303, in full: a run of a halted engine is completed with no step; a run with no budget executes nothing; a run
whose first step blocks ends there, that step not counted; any other run is its first step, counted, and the run with
the rest of the budget. -/
def Obligations.RunIsStepThenRun : Prop :=
  (∀ (n : Int) (s : State), s.runState = .halted → hostRun n s = .next (s, ⟨true, 0, false⟩)) ∧
  (∀ (n : Int) (s : State), n ≤ 0 → s.runState ≠ .halted →
    hostRun n s = .next (s, ⟨false, 0, decide (s.runState = .waitingForInput)⟩)) ∧
  (∀ (n : Int) (s t : State), 0 < n → s.runState ≠ .halted → step s = .next t →
    t.runState = .waitingForInput → hostRun n s = .next (t, ⟨false, 0, true⟩)) ∧
  (∀ (n : Nat) (s t u : State) (r : RunResult), s.runState ≠ .halted → step s = .next t →
    t.runState ≠ .waitingForInput → hostRun n t = .next (u, r) →
    hostRun (n + 1) s = .next (u, { r with steps := r.steps + 1 }))

/-! ### The assembler -/

/-- R125, R126, R322: the field of a label operand is the difference of the label's address and the address after the
instruction, cut to the field's width; an error is reported exactly where the difference does not fit; and where none
is, the engine's PC-relative address is the label's again: LEA loads it, JSR jumps to it. The difference is taken modulo
2^16 and read as signed, which is the model's choice (notes/assumptions/5.md). -/
def Obligations.AssembledOffsetReachesTheLabel : Prop :=
  (∀ (mode : Asm.NumeralOffset) (symbols : List (Asm.Text × Word)) (name : Asm.Text) (a target : Word) (w : Nat),
    Asm.find symbols name = some target → 0 < w → w ≤ 16 →
    (Asm.offsetField mode symbols a w (.label name)).1 = (target - (a + 1#16)).setWidth w ∧
    ((Asm.offsetField mode symbols a w (.label name)).2 = [] ↔
      -(2 ^ (w - 1) : Int) ≤ (target - (a + 1#16)).toInt ∧ (target - (a + 1#16)).toInt < 2 ^ (w - 1))) ∧
  (∀ (mode : Asm.NumeralOffset) (symbols : List (Asm.Text × Word)) (name : Asm.Text) (a target : Word) (dr : Reg)
    (s : State), Asm.find symbols name = some target → s.pc = a + 1#16 →
    (Asm.offsetField mode symbols a 9 (.label name)).2 = [] →
    ∃ t, exec (.lea dr (Asm.offsetField mode symbols a 9 (.label name)).1) s = .next t ∧ readReg t dr = target) ∧
  (∀ (mode : Asm.NumeralOffset) (symbols : List (Asm.Text × Word)) (name : Asm.Text) (a target : Word)
    (s : State), Asm.find symbols name = some target → s.pc = a + 1#16 →
    (Asm.offsetField mode symbols a 11 (.label name)).2 = [] →
    ∃ t, exec (.jsr (Asm.offsetField mode symbols a 11 (.label name)).1) s = .next t ∧ t.pc = target)

/-- R133: the text of a word's disassembly, assembled at its address behind an origin directive, gives without an error
one word at that address, which decodes to the same instruction, and is the same word where the code generator produces
it. What the disassembler writes for the other words, and how the assembler reads numerals, is the model's choice
(notes/assumptions/5.md). -/
def Obligations.DisassemblyReassembles : Prop :=
  ∀ (mode : Asm.NumeralOffset) (w a : Word), ∃ v,
    (Asm.assemble mode (Asm.render (.orig a.toNat) ++ '\n' :: Asm.disassembleText mode w a)).errors = [] ∧
    (Asm.assemble mode (Asm.render (.orig a.toNat) ++ '\n' :: Asm.disassembleText mode w a)).origin = a ∧
    (Asm.assemble mode (Asm.render (.orig a.toNat) ++ '\n' :: Asm.disassembleText mode w a)).words = [v] ∧
    decode v = decode w ∧ (∀ i : Instr, w = encode i → v = w)
end

