-- ==== Sys2Proof/Laws/Assembler.lean ====
section
/-! SUPPORT. The assembler reads back what the disassembler writes: numerals, tokens, one line, and a source of lines. A
claim about assembled text is, by `parseLine_render` and `splitLines_calm`, one about statements. -/

open Sys2Proof
namespace Sys2Proof.Asm

theorem digit_digitChar {base d : Nat} (hb : base ≤ 16) (hd : d < base) : digit base (Nat.digitChar d) = some d := by
  have h : ∀ d < 16, (let c := Nat.digitChar d
      (if c.isDigit then c.toNat - 48 else if 97 ≤ c.toNat ∧ c.toNat ≤ 102 then c.toNat - 87
        else if 65 ≤ c.toNat ∧ c.toNat ≤ 70 then c.toNat - 55 else base)) = d := by
    intro d hd
    interval_cases d <;> rfl
  have := h d (by omega)
  simp only at this
  simp only [digit, this, if_pos hd]

theorem digits_append (base acc : Nat) (xs : Text) (c : Char) :
    digits base acc (xs ++ [c]) = (digits base acc xs).bind fun a => (digit base c).map (a * base + ·) := by
  induction xs generalizing acc with
  | nil => simp only [List.nil_append, digits]; cases digit base c <;> rfl
  | cons x xs ih =>
    simp only [List.cons_append, digits]
    cases digit base x with
    | none => rfl
    | some d => exact ih _

theorem digits_toDigits {base : Nat} (h1 : 1 < base) (hb : base ≤ 16) (n : Nat) :
    digits base 0 (Nat.toDigits base n) = some n := by
  induction n using Nat.strongRecOn with
  | _ n ih =>
    rcases Nat.lt_or_ge n base with h | h
    · rw [Nat.toDigits_of_lt_base h]; simp [digits, digit_digitChar hb h]
    · rw [Nat.toDigits_of_base_le h1 h, digits_append, ih _ (Nat.div_lt_self (by omega) h1)]
      simp [digit_digitChar hb (Nat.mod_lt n (by omega)), Nat.div_add_mod']
  
theorem mem_toDigits {base : Nat} (h1 : 1 < base) (n : Nat) :
    ∀ c ∈ Nat.toDigits base n, ∃ d < base, c = Nat.digitChar d := by
  induction n using Nat.strongRecOn with
  | _ n ih =>
    rcases Nat.lt_or_ge n base with h | h
    · rw [Nat.toDigits_of_lt_base h]; intro c hc; exact ⟨n, h, by simpa using hc⟩
    · rw [Nat.toDigits_of_base_le h1 h]; intro c hc
      rcases List.mem_append.mp hc with hc | hc
      · exact ih _ (Nat.div_lt_self (by omega) h1) c hc
      · exact ⟨n % base, Nat.mod_lt n (by omega), by simpa using hc⟩

/-- The characters that stand for themselves inside a token. -/
def plain (c : Char) : Bool := !isSeparator c && c != '"' && c != ';' && c != '\n'

theorem plain_toDigits {base : Nat} (h1 : 1 < base) (hb : base ≤ 16) (n : Nat) :
    (Nat.toDigits base n).all plain = true := by
  rw [List.all_eq_true]
  intro c hc
  obtain ⟨d, hd, rfl⟩ := mem_toDigits h1 n c hc
  have : ∀ d < 16, plain (Nat.digitChar d) = true := by decide
  exact this d (by omega)

theorem number_toDigits {base : Nat} (h1 : 1 < base) (hb : base ≤ 16) (n : Nat) :
    number base (Nat.toDigits base n) = some n := by
  rw [number, if_neg Nat.toDigits_ne_nil, digits_toDigits h1 hb]

theorem parseNumeral_decimal (v : Int) : parseNumeral (decimal v) = some v := by
  unfold decimal
  split
  · simp only [List.cons_append, List.nil_append, parseNumeral, number_toDigits (by decide : 1 < 10) (by decide)]
    exact congrArg some (show -(v.natAbs : Int) = v by omega)
  · rename_i h
    simp only [List.nil_append]
    have hne : ∀ cs, Nat.toDigits 10 v.natAbs ≠ '-' :: cs := by
      intro cs e
      obtain ⟨d, hd, h'⟩ := mem_toDigits (by decide : 1 < 10) v.natAbs '-' (by rw [e]; simp)
      revert h'; revert d; decide
    rw [parseNumeral.eq_2 _ hne, number_toDigits (by decide) (by decide)]
    simp; omega

theorem parseNumeral_hexadecimal (v : Int) : parseNumeral (hexadecimal v) = some v := by
  unfold hexadecimal
  split
  · exact parseNumeral_decimal v
  · simp only [parseNumeral, number_toDigits (by decide : 1 < 16) (by decide)]
    simp; omega

theorem parseReg_regText (r : Reg) : parseReg (regText r) = some r := by cases r <;> rfl

theorem stripComment_plain {xs : Text} (h : ∀ c ∈ xs, c ≠ '"' ∧ c ≠ ';') : stripComment false xs = xs := by
  induction xs with
  | nil => rfl
  | cons x xs ih =>
    have hx := h x (by simp)
    rw [stripComment.eq_7 _ _ hx.2 hx.1, ih fun c hc => h c (by simp [hc])]

theorem tokens_plain {w : Text} (h : w.all plain = true) (acc rest : Text) :
    tokens false acc (w ++ rest) = tokens false (w.reverse ++ acc) rest := by
  induction w generalizing acc with
  | nil => rfl
  | cons c cs ih =>
    simp only [List.all_cons, Bool.and_eq_true] at h
    have hc := h.1
    simp only [plain, Bool.and_eq_true, Bool.not_eq_true', bne_iff_ne, ne_eq] at hc
    rw [List.cons_append, tokens.eq_6 _ _ _ hc.1.1.2]
    simp [hc.1.1.1, ih h.2]

/-- The separator of a rendered line's operands. -/
theorem tokens_space (acc rest : Text) : tokens false acc (' ' :: rest) =
    (if acc = [] then [] else [acc.reverse]) ++ tokens false [] rest := by
  rw [tokens.eq_6 _ _ _ (by decide)]; rfl

theorem tokens_comma (acc rest : Text) : tokens false acc (',' :: rest) =
    (if acc = [] then [] else [acc.reverse]) ++ tokens false [] rest := by
  rw [tokens.eq_6 _ _ _ (by decide)]; rfl

/-- A piece of text that is one token. -/
def Token (w : Text) : Prop := w.all plain = true ∧ w ≠ []

/-- The characters of a line as `render` lays it out hold no quote, no comment and no end of line. -/
def Calm (w : Text) : Prop := ∀ c ∈ w, c ≠ '"' ∧ c ≠ ';' ∧ c ≠ '\n'

theorem Token.calm {w : Text} (h : Token w) : Calm w := by
  intro c hc
  have := List.all_eq_true.mp h.1 c hc
  simp only [plain, Bool.and_eq_true, bne_iff_ne, ne_eq] at this
  exact ⟨this.1.1.2, this.1.2, this.2⟩

theorem intercalate_cons_cons (w x : Text) (xs : List Text) :
    [',', ' '].intercalate (w :: x :: xs) = w ++ ',' :: ' ' :: [',', ' '].intercalate (x :: xs) := by
  simp [List.intercalate]

theorem calm_operands {ops : List Text} (h : ∀ w ∈ ops, Token w) : Calm ([',', ' '].intercalate ops) := by
  induction ops with
  | nil => intro c hc; cases hc
  | cons w ws ih =>
    cases ws with
    | nil => simpa [List.intercalate] using (h w (by simp)).calm
    | cons x xs =>
      have hr := ih fun y hy => h y (by simp [hy])
      intro c hc
      rw [intercalate_cons_cons, List.mem_append, List.mem_cons, List.mem_cons] at hc
      obtain hc | rfl | rfl | hc := hc
      · exact (h w (by simp)).calm c hc
      · decide
      · decide
      · exact hr c hc

/-- A rendered line: a mnemonic and its operands. -/
def lineOf (m : Text) (ops : List Text) : Text := m ++ (if ops = [] then [] else ' ' :: [',', ' '].intercalate ops)

theorem calm_lineOf {m : Text} {ops : List Text} (hm : Token m) (h : ∀ w ∈ ops, Token w) : Calm (lineOf m ops) := by
  intro c hc
  rw [lineOf, List.mem_append] at hc
  obtain hc | hc := hc
  · exact hm.calm c hc
  · split at hc
    · cases hc
    · rw [List.mem_cons] at hc
      obtain rfl | hc := hc
      · decide
      · exact calm_operands h c hc

theorem tokens_last {w : Text} (h : Token w) : tokens false [] w = [w] := by
  have := tokens_plain h.1 [] []
  simp only [List.append_nil] at this
  rw [this]
  simp [tokens, h.2]

theorem tokens_operands {ops : List Text} (h : ∀ w ∈ ops, Token w) :
    tokens false [] ([',', ' '].intercalate ops) = ops := by
  induction ops with
  | nil => rfl
  | cons w ws ih =>
    have hw := h w (by simp)
    cases ws with
    | nil => simpa [List.intercalate] using tokens_last hw
    | cons x xs =>
      rw [intercalate_cons_cons, tokens_plain hw.1, tokens_comma, tokens_space, ih fun y hy => h y (by simp [hy])]
      simp [hw.2]

theorem tokens_lineOf {m : Text} {ops : List Text} (hm : Token m) (h : ∀ w ∈ ops, Token w) :
    tokens false [] (lineOf m ops) = m :: ops := by
  rw [lineOf, tokens_plain hm.1]
  split
  · rename_i ho; simp [tokens, hm.2, ho]
  · rw [tokens_space, tokens_operands h]; simp [hm.2]

/-- A rendered line parses as its mnemonic's reader reads its operands. -/
theorem parseLine_lineOf {m : Text} {r : Reader} (hr : readerOf m = some r) {ops : List Text} {s : Stmt} (n : Nat)
    (hs : r ops = .ok s) (hm : Token m) (h : ∀ w ∈ ops, Token w) :
    parseLine n (lineOf m ops) = (⟨n, none, some s⟩, []) := by
  unfold parseLine
  rw [stripComment_plain fun c hc => ⟨(calm_lineOf hm h c hc).1, (calm_lineOf hm h c hc).2.1⟩, tokens_lineOf hm h]
  simp [hr, parseStmt, hs, Except.map]

theorem token_regText (r : Reg) : Token (regText r) := by cases r <;> exact ⟨by decide, by decide⟩

theorem token_decimal (v : Int) : Token (decimal v) := by
  unfold decimal Token
  split <;> simp [plain_toDigits, show plain '#' = true from by decide, show plain '-' = true from by decide]

theorem token_hexadecimal (v : Int) : Token (hexadecimal v) := by
  unfold hexadecimal
  split
  · exact token_decimal v
  · simp [Token, plain_toDigits, show plain 'x' = true from by decide]

theorem parseTarget_decimal (v : Int) : parseTarget (decimal v) = .ok (.num v) := by
  simp [parseTarget, parseNumeral_decimal]

theorem parseTarget_hexadecimal (v : Int) : parseTarget (hexadecimal v) = .ok (.num v) := by
  simp [parseTarget, parseNumeral_hexadecimal]

theorem parseReg_decimal (v : Int) : parseReg (decimal v) = none := by
  unfold parseReg upper decimal
  split
  · rename_i h; simp [show Char.toUpper '#' = '#' from rfl] at h
  · rfl

/-- The statements whose text has numerals for targets: those the disassembler makes, and the directives. -/
def Written : Stmt → Prop
  | .br n z p t => (n || z || p) = true ∧ ∃ v, t = .num v
  | .jsr t | .ld _ t | .ldi _ t | .lea _ t | .st _ t | .sti _ t | .fill t => ∃ v, t = .num v
  | .stringz _ => False
  | .addReg _ _ _ | .addImm _ _ _ | .andReg _ _ _ | .andImm _ _ _ | .notReg _ _ | .jmp _ | .jsrr _ | .ldr _ _ _
  | .str _ _ _ | .rti | .trap _ | .orig _ | .fin | .blkw _ => True

/-- A rendered statement is a line of one mnemonic that reads as the statement. -/
theorem render_reads {s : Stmt} (h : Written s) : ∃ m ops r, render s = lineOf m ops ∧ readerOf m = some r ∧
    r ops = .ok s ∧ Token m ∧ ∀ w ∈ ops, Token w := by
  cases s with
  | addReg d x y => exact ⟨_, [regText d, regText x, regText y], _, rfl, rfl,
      by simp [withReg, withOperand, parseReg_regText], ⟨by decide, by decide⟩, by simp [token_regText]⟩
  | addImm d x v => exact ⟨_, [regText d, regText x, decimal v], _, rfl, rfl,
      by simp [withReg, withOperand, withNum, parseReg_regText, parseReg_decimal, parseNumeral_decimal],
      ⟨by decide, by decide⟩, by simp [token_regText, token_decimal]⟩
  | andReg d x y => exact ⟨_, [regText d, regText x, regText y], _, rfl, rfl,
      by simp [withReg, withOperand, parseReg_regText], ⟨by decide, by decide⟩, by simp [token_regText]⟩
  | andImm d x v => exact ⟨_, [regText d, regText x, decimal v], _, rfl, rfl,
      by simp [withReg, withOperand, withNum, parseReg_regText, parseReg_decimal, parseNumeral_decimal],
      ⟨by decide, by decide⟩, by simp [token_regText, token_decimal]⟩
  | notReg d x => exact ⟨_, [regText d, regText x], _, rfl, rfl,
      by simp [withReg, none0, parseReg_regText], ⟨by decide, by decide⟩, by simp [token_regText]⟩
  | br n z p t =>
    obtain ⟨hc, v, rfl⟩ := h
    cases n <;> cases z <;> cases p <;> first | exact absurd hc (by decide) |
      exact ⟨_, [decimal v], _, rfl, rfl, by simp [withTarget, parseTarget_decimal, Except.map],
        ⟨by decide, by decide⟩, by simp [token_decimal]⟩
  | jmp b =>
    by_cases e : b = .r7
    · subst e; exact ⟨_, [], _, rfl, rfl, rfl, ⟨by decide, by decide⟩, by simp⟩
    · exact ⟨_, [regText b], _, if_neg e, rfl, by simp [withReg, none0, parseReg_regText], ⟨by decide, by decide⟩,
        by simp [token_regText]⟩
  | jsr t => obtain ⟨v, rfl⟩ := h; exact ⟨_, [decimal v], _, rfl, rfl,
      by simp [withTarget, parseTarget_decimal, Except.map], ⟨by decide, by decide⟩, by simp [token_decimal]⟩
  | jsrr b => exact ⟨_, [regText b], _, rfl, rfl, by simp [withReg, none0, parseReg_regText],
        ⟨by decide, by decide⟩, by simp [token_regText]⟩
  | ld d t => obtain ⟨v, rfl⟩ := h; exact ⟨_, [regText d, decimal v], _, rfl, rfl,
      by simp [withReg, withTarget, parseReg_regText, parseTarget_decimal, Except.map], ⟨by decide, by decide⟩,
      by simp [token_regText, token_decimal]⟩
  | ldi d t => obtain ⟨v, rfl⟩ := h; exact ⟨_, [regText d, decimal v], _, rfl, rfl,
      by simp [withReg, withTarget, parseReg_regText, parseTarget_decimal, Except.map], ⟨by decide, by decide⟩,
      by simp [token_regText, token_decimal]⟩
  | lea d t => obtain ⟨v, rfl⟩ := h; exact ⟨_, [regText d, decimal v], _, rfl, rfl,
      by simp [withReg, withTarget, parseReg_regText, parseTarget_decimal, Except.map], ⟨by decide, by decide⟩,
      by simp [token_regText, token_decimal]⟩
  | st d t => obtain ⟨v, rfl⟩ := h; exact ⟨_, [regText d, decimal v], _, rfl, rfl,
      by simp [withReg, withTarget, parseReg_regText, parseTarget_decimal, Except.map], ⟨by decide, by decide⟩,
      by simp [token_regText, token_decimal]⟩
  | sti d t => obtain ⟨v, rfl⟩ := h; exact ⟨_, [regText d, decimal v], _, rfl, rfl,
      by simp [withReg, withTarget, parseReg_regText, parseTarget_decimal, Except.map], ⟨by decide, by decide⟩,
      by simp [token_regText, token_decimal]⟩
  | ldr d b v => exact ⟨_, [regText d, regText b, decimal v], _, rfl, rfl,
      by simp [withReg, withNum, parseReg_regText, parseNumeral_decimal], ⟨by decide, by decide⟩,
      by simp [token_regText, token_decimal]⟩
  | str d b v => exact ⟨_, [regText d, regText b, decimal v], _, rfl, rfl,
      by simp [withReg, withNum, parseReg_regText, parseNumeral_decimal], ⟨by decide, by decide⟩,
      by simp [token_regText, token_decimal]⟩
  | rti => exact ⟨_, [], _, rfl, rfl, rfl, ⟨by decide, by decide⟩, by simp⟩
  | fin => exact ⟨_, [], _, rfl, rfl, rfl, ⟨by decide, by decide⟩, by simp⟩
  | trap v =>
    by_cases h0 : v = 0x20
    · subst h0; exact ⟨_, [], _, rfl, rfl, rfl, ⟨by decide, by decide⟩, by simp⟩
    by_cases h1 : v = 0x21
    · subst h1; exact ⟨_, [], _, rfl, rfl, rfl, ⟨by decide, by decide⟩, by simp⟩
    by_cases h2 : v = 0x22
    · subst h2; exact ⟨_, [], _, rfl, rfl, rfl, ⟨by decide, by decide⟩, by simp⟩
    by_cases h3 : v = 0x23
    · subst h3; exact ⟨_, [], _, rfl, rfl, rfl, ⟨by decide, by decide⟩, by simp⟩
    by_cases h4 : v = 0x24
    · subst h4; exact ⟨_, [], _, rfl, rfl, rfl, ⟨by decide, by decide⟩, by simp⟩
    by_cases h5 : v = 0x25
    · subst h5; exact ⟨_, [], _, rfl, rfl, rfl, ⟨by decide, by decide⟩, by simp⟩
    exact ⟨_, [hexadecimal v], _, by simp only [render, h0, h1, h2, h3, h4, h5, if_false]; rfl, rfl,
      by simp [withNum, parseNumeral_hexadecimal], ⟨by decide, by decide⟩, by simp [token_hexadecimal]⟩
  | orig v => exact ⟨_, [hexadecimal v], _, rfl, rfl,
      by simp [withNum, parseNumeral_hexadecimal], ⟨by decide, by decide⟩, by simp [token_hexadecimal]⟩
  | blkw v => exact ⟨_, [decimal v], _, rfl, rfl,
      by simp [withNum, parseNumeral_decimal], ⟨by decide, by decide⟩, by simp [token_decimal]⟩
  | fill t => obtain ⟨v, rfl⟩ := h; exact ⟨_, [hexadecimal v], _, rfl, rfl,
      by simp [withTarget, parseTarget_hexadecimal, Except.map], ⟨by decide, by decide⟩,
      by simp [token_hexadecimal]⟩
  | stringz t => exact absurd h (by simp [Written])

/-- Source text of a statement reads as that statement (R120-R124, R127, R133). -/
theorem parseLine_render (n : Nat) {s : Stmt} (h : Written s) : parseLine n (render s) = (⟨n, none, some s⟩, []) := by
  obtain ⟨m, ops, r, e, hr, hs, hm, ho⟩ := render_reads h
  rw [e, parseLine_lineOf hr n hs hm ho]

theorem calm_render {s : Stmt} (h : Written s) : Calm (render s) := by
  obtain ⟨m, ops, r, e, hr, hs, hm, ho⟩ := render_reads h
  rw [e]; exact calm_lineOf hm ho

/-- A line without an end of line is one line of the source. -/
theorem splitLines_calm {w : Text} (h : Calm w) (acc rest : Text) :
    splitLines acc (w ++ '\n' :: rest) = (acc.reverse ++ w) :: splitLines [] rest := by
  induction w generalizing acc with
  | nil => simp [splitLines]
  | cons c cs ih =>
    have hc := (h c (by simp)).2.2
    rw [List.cons_append, splitLines.eq_3 _ _ _ hc, ih fun d hd => h d (by simp [hd])]
    simp

theorem splitLines_last {w : Text} (h : Calm w) (acc : Text) : splitLines acc w = [acc.reverse ++ w] := by
  induction w generalizing acc with
  | nil => simp [splitLines]
  | cons c cs ih =>
    have hc := (h c (by simp)).2.2
    rw [splitLines.eq_3 _ _ _ hc, ih fun d hd => h d (by simp [hd])]
    simp

theorem written_disassemble (mode : NumeralOffset) (w a : Word) : Written (disassemble mode w a) := by
  have ht : ∀ {k : Nat} (off : BitVec k), ∃ v, targetOf mode a off = .num v := by
    intro k off; cases mode <;> exact ⟨_, rfl⟩
  unfold disassemble
  split <;> try split
  all_goals first | exact trivial | exact ht _ | exact ⟨_, rfl⟩ | (exact ⟨by assumption, ht _⟩)

/-- The source of one statement after an origin directive, assembled: what pass 2 emits of the statement there. -/
theorem assemble_one (mode : NumeralOffset) (a : Word) {s : Stmt} (h : Written s) (hs : size s = 1) :
    assemble mode (render (.orig a.toNat) ++ '\n' :: render s) =
      ⟨a, (emitWords mode [] a s).1, [], (emitWords mode [] a s).2.map fun k => ⟨2, k⟩,
        (List.range (emitWords mode [] a s).1.length).map fun k => (a + BitVec.ofNat 16 k, 2)⟩ := by
  have ho : Written (.orig a.toNat) := trivial
  have hn : BitVec.ofInt 16 (a.toNat : Int) = a := by simp
  simp only [assemble, splitLines_calm (calm_render ho), splitLines_last (calm_render h), List.reverse_nil,
    List.nil_append, List.length_cons, List.length_nil]
  have hr : List.range (0 + 1 + 1) = [0, 1] := rfl
  simp only [hr, List.zip_cons_cons, List.zip_nil_right, List.map_cons, List.map_nil, Nat.zero_add,
    parseLine_render _ ho, parseLine_render _ h]
  cases s <;> simp_all [pass1, pass1Line, bindLabel, size, pass2Line]
end Sys2Proof.Asm
end

