-- ==== Sys2Proof/Laws/AtParameters.lean ====
section
/-! SUPPORT. The machine at any parameters, at the spec values, is the machine. A statement about `execAt` or `stepAt`
at all parameters is one about `exec` and `step` by these. -/

namespace Sys2Proof.Machine

@[simp] theorem execAt_params (i : Instr) (s : State) : execAt params i s = exec i s := by cases i <;> rfl

@[simp] theorem stepAt_params (s : State) : stepAt params s = step s := by simp only [stepAt, step, execAt_params]

theorem stepAt_params_eq : stepAt params = step := funext stepAt_params

theorem hostStepAt_params (s : State) : hostStepAt params s = hostStep s := by
  simp only [hostStepAt, hostStep, stepAt_params_eq]

theorem hostRunAt_params (n : Int) (s : State) : hostRunAt params n s = hostRun n s := by
  simp only [hostRunAt, hostRun, stepAt_params_eq]

theorem machineAt_params : machineAt params = Sys2Proof.core := by
  simp only [machineAt, Sys2Proof.core, stepAt_params_eq]

/-- What a halted machine's step does at any parameters. -/
theorem stepAt_halted (cfg : Config) {s : State} (h : s.runState = .halted) : stepAt cfg s = .next s := if_pos h

/-- What any other machine's step does at any parameters: the execution of the fetched word. -/
theorem stepAt_running (cfg : Config) {s : State} (h : s.runState ≠ .halted) :
    stepAt cfg s = execAt cfg (decode (fetch cfg s).1) (fetch cfg s).2 := if_neg h

end Sys2Proof.Machine
end

