-- ==== Sys2Proof/Laws/Encoding.lean ====
section
/-! SUPPORT. Register fields. A field of an encoded word is read with `BitVec.extractLsb'_append_eq_right` and
`BitVec.extractLsb'_append_eq_of_le`, by `rw`, as in Laws/PerInstr.lean. -/

namespace Sys2Proof

@[simp] theorem Reg.ofBits_toBits (r : Reg) : Reg.ofBits r.toBits = r := by cases r <;> rfl

@[simp] theorem Reg.toBits_ofBits (b : BitVec 3) : (Reg.ofBits b).toBits = b := by revert b; decide

/-- A vector that names no service is none of the six (R231). -/
theorem not_isServiceVector {v : BitVec 8} (h : isServiceVector v = false) :
    v ≠ 0x20#8 ∧ v ≠ 0x21#8 ∧ v ≠ 0x22#8 ∧ v ≠ 0x23#8 ∧ v ≠ 0x24#8 ∧ v ≠ 0x25#8 := by
  refine ⟨?_, ?_, ?_, ?_, ?_, ?_⟩ <;> rintro rfl <;> revert h <;> decide

end Sys2Proof
end

