-- ==== Sys2Proof/Laws/State.lean ====
section
/-! SUPPORT. What each update of the state leaves in each field: one lemma per field per update, so that no proof
unfolds a record update. -/

namespace Sys2Proof.Machine

/-! ### writeReg -/

@[simp] theorem writeReg_regs (s : State) (r : Reg) (v : Word) : (writeReg s r v).regs = s.regs.set r v := rfl
@[simp] theorem writeReg_pc (s : State) (r : Reg) (v : Word) : (writeReg s r v).pc = s.pc := rfl
@[simp] theorem writeReg_flags (s : State) (r : Reg) (v : Word) : (writeReg s r v).flags = s.flags := rfl
@[simp] theorem writeReg_runState (s : State) (r : Reg) (v : Word) : (writeReg s r v).runState = s.runState := rfl
@[simp] theorem writeReg_output (s : State) (r : Reg) (v : Word) : (writeReg s r v).output = s.output := rfl
@[simp] theorem writeReg_buffer (s : State) (r : Reg) (v : Word) : (writeReg s r v).buffer = s.buffer := rfl
@[simp] theorem writeReg_supplier (s : State) (r : Reg) (v : Word) : (writeReg s r v).supplier = s.supplier := rfl
@[simp] theorem writeReg_supplierCalls (s : State) (r : Reg) (v : Word) : (writeReg s r v).supplierCalls = s.supplierCalls := rfl
@[simp] theorem writeReg_stats (s : State) (r : Reg) (v : Word) : (writeReg s r v).stats = s.stats := rfl
@[simp] theorem writeReg_mem (s : State) (r : Reg) (v : Word) : (writeReg s r v).mem = s.mem := rfl

/-! ### setPc -/

@[simp] theorem setPc_regs (s : State) (v : Word) : (setPc s v).regs = s.regs := rfl
@[simp] theorem setPc_pc (s : State) (v : Word) : (setPc s v).pc = v := rfl
@[simp] theorem setPc_flags (s : State) (v : Word) : (setPc s v).flags = s.flags := rfl
@[simp] theorem setPc_runState (s : State) (v : Word) : (setPc s v).runState = s.runState := rfl
@[simp] theorem setPc_output (s : State) (v : Word) : (setPc s v).output = s.output := rfl
@[simp] theorem setPc_buffer (s : State) (v : Word) : (setPc s v).buffer = s.buffer := rfl
@[simp] theorem setPc_supplier (s : State) (v : Word) : (setPc s v).supplier = s.supplier := rfl
@[simp] theorem setPc_supplierCalls (s : State) (v : Word) : (setPc s v).supplierCalls = s.supplierCalls := rfl
@[simp] theorem setPc_stats (s : State) (v : Word) : (setPc s v).stats = s.stats := rfl
@[simp] theorem setPc_mem (s : State) (v : Word) : (setPc s v).mem = s.mem := rfl

/-! ### setcc -/

@[simp] theorem setcc_regs (s : State) (v : Word) : (setcc s v).regs = s.regs := rfl
@[simp] theorem setcc_pc (s : State) (v : Word) : (setcc s v).pc = s.pc := rfl
@[simp] theorem setcc_flags (s : State) (v : Word) : (setcc s v).flags = flagsOf v := rfl
@[simp] theorem setcc_runState (s : State) (v : Word) : (setcc s v).runState = s.runState := rfl
@[simp] theorem setcc_output (s : State) (v : Word) : (setcc s v).output = s.output := rfl
@[simp] theorem setcc_buffer (s : State) (v : Word) : (setcc s v).buffer = s.buffer := rfl
@[simp] theorem setcc_supplier (s : State) (v : Word) : (setcc s v).supplier = s.supplier := rfl
@[simp] theorem setcc_supplierCalls (s : State) (v : Word) : (setcc s v).supplierCalls = s.supplierCalls := rfl
@[simp] theorem setcc_stats (s : State) (v : Word) : (setcc s v).stats = s.stats := rfl
@[simp] theorem setcc_mem (s : State) (v : Word) : (setcc s v).mem = s.mem := rfl

/-! ### writeResult -/

@[simp] theorem writeResult_regs (s : State) (r : Reg) (v : Word) : (writeResult s r v).regs = s.regs.set r v := rfl
@[simp] theorem writeResult_pc (s : State) (r : Reg) (v : Word) : (writeResult s r v).pc = s.pc := rfl
@[simp] theorem writeResult_flags (s : State) (r : Reg) (v : Word) : (writeResult s r v).flags = flagsOf v := rfl
@[simp] theorem writeResult_runState (s : State) (r : Reg) (v : Word) : (writeResult s r v).runState = s.runState := rfl
@[simp] theorem writeResult_output (s : State) (r : Reg) (v : Word) : (writeResult s r v).output = s.output := rfl
@[simp] theorem writeResult_buffer (s : State) (r : Reg) (v : Word) : (writeResult s r v).buffer = s.buffer := rfl
@[simp] theorem writeResult_supplier (s : State) (r : Reg) (v : Word) : (writeResult s r v).supplier = s.supplier := rfl
@[simp] theorem writeResult_supplierCalls (s : State) (r : Reg) (v : Word) : (writeResult s r v).supplierCalls = s.supplierCalls := rfl
@[simp] theorem writeResult_stats (s : State) (r : Reg) (v : Word) : (writeResult s r v).stats = s.stats := rfl
@[simp] theorem writeResult_mem (s : State) (r : Reg) (v : Word) : (writeResult s r v).mem = s.mem := rfl

/-! ### rawWrite -/

@[simp] theorem rawWrite_regs (s : State) (a v : Word) : (rawWrite s a v).regs = s.regs := rfl
@[simp] theorem rawWrite_pc (s : State) (a v : Word) : (rawWrite s a v).pc = s.pc := rfl
@[simp] theorem rawWrite_flags (s : State) (a v : Word) : (rawWrite s a v).flags = s.flags := rfl
@[simp] theorem rawWrite_runState (s : State) (a v : Word) : (rawWrite s a v).runState = s.runState := rfl
@[simp] theorem rawWrite_output (s : State) (a v : Word) : (rawWrite s a v).output = s.output := rfl
@[simp] theorem rawWrite_buffer (s : State) (a v : Word) : (rawWrite s a v).buffer = s.buffer := rfl
@[simp] theorem rawWrite_supplier (s : State) (a v : Word) : (rawWrite s a v).supplier = s.supplier := rfl
@[simp] theorem rawWrite_supplierCalls (s : State) (a v : Word) : (rawWrite s a v).supplierCalls = s.supplierCalls := rfl
@[simp] theorem rawWrite_stats (s : State) (a v : Word) : (rawWrite s a v).stats = s.stats := rfl
@[simp] theorem rawWrite_mem (s : State) (a v : Word) : (rawWrite s a v).mem = s.mem.write a.toNat v := rfl

/-! ### halt -/

@[simp] theorem halt_regs (s : State) : (halt s).regs = s.regs := rfl
@[simp] theorem halt_pc (s : State) : (halt s).pc = s.pc := rfl
@[simp] theorem halt_flags (s : State) : (halt s).flags = s.flags := rfl
@[simp] theorem halt_runState (s : State) : (halt s).runState = .halted := rfl
@[simp] theorem halt_output (s : State) : (halt s).output = s.output := rfl
@[simp] theorem halt_buffer (s : State) : (halt s).buffer = s.buffer := rfl
@[simp] theorem halt_supplier (s : State) : (halt s).supplier = s.supplier := rfl
@[simp] theorem halt_supplierCalls (s : State) : (halt s).supplierCalls = s.supplierCalls := rfl
@[simp] theorem halt_stats (s : State) : (halt s).stats = s.stats := rfl
@[simp] theorem halt_mem (s : State) : (halt s).mem = s.mem := rfl

/-! ### emit -/

@[simp] theorem emit_regs (s : State) (c : Byte) : (emit s c).regs = s.regs := rfl
@[simp] theorem emit_pc (s : State) (c : Byte) : (emit s c).pc = s.pc := rfl
@[simp] theorem emit_flags (s : State) (c : Byte) : (emit s c).flags = s.flags := rfl
@[simp] theorem emit_runState (s : State) (c : Byte) : (emit s c).runState = s.runState := rfl
@[simp] theorem emit_output (s : State) (c : Byte) : (emit s c).output = s.output ++ [c] := rfl
@[simp] theorem emit_buffer (s : State) (c : Byte) : (emit s c).buffer = s.buffer := rfl
@[simp] theorem emit_supplier (s : State) (c : Byte) : (emit s c).supplier = s.supplier := rfl
@[simp] theorem emit_supplierCalls (s : State) (c : Byte) : (emit s c).supplierCalls = s.supplierCalls := rfl
@[simp] theorem emit_stats (s : State) (c : Byte) : (emit s c).stats = s.stats := rfl
@[simp] theorem emit_mem (s : State) (c : Byte) : (emit s c).mem = s.mem := rfl

/-! ### countReads -/

@[simp] theorem countReads_regs (s : State) (n : Nat) : (countReads s n).regs = s.regs := rfl
@[simp] theorem countReads_pc (s : State) (n : Nat) : (countReads s n).pc = s.pc := rfl
@[simp] theorem countReads_flags (s : State) (n : Nat) : (countReads s n).flags = s.flags := rfl
@[simp] theorem countReads_runState (s : State) (n : Nat) : (countReads s n).runState = s.runState := rfl
@[simp] theorem countReads_output (s : State) (n : Nat) : (countReads s n).output = s.output := rfl
@[simp] theorem countReads_buffer (s : State) (n : Nat) : (countReads s n).buffer = s.buffer := rfl
@[simp] theorem countReads_supplier (s : State) (n : Nat) : (countReads s n).supplier = s.supplier := rfl
@[simp] theorem countReads_supplierCalls (s : State) (n : Nat) : (countReads s n).supplierCalls = s.supplierCalls := rfl
@[simp] theorem countReads_stats (s : State) (n : Nat) : (countReads s n).stats = { s.stats with memReads := s.stats.memReads + n } := rfl
@[simp] theorem countReads_mem (s : State) (n : Nat) : (countReads s n).mem = s.mem := rfl

/-! ### countWrite -/

@[simp] theorem countWrite_regs (s : State) : (countWrite s).regs = s.regs := rfl
@[simp] theorem countWrite_pc (s : State) : (countWrite s).pc = s.pc := rfl
@[simp] theorem countWrite_flags (s : State) : (countWrite s).flags = s.flags := rfl
@[simp] theorem countWrite_runState (s : State) : (countWrite s).runState = s.runState := rfl
@[simp] theorem countWrite_output (s : State) : (countWrite s).output = s.output := rfl
@[simp] theorem countWrite_buffer (s : State) : (countWrite s).buffer = s.buffer := rfl
@[simp] theorem countWrite_supplier (s : State) : (countWrite s).supplier = s.supplier := rfl
@[simp] theorem countWrite_supplierCalls (s : State) : (countWrite s).supplierCalls = s.supplierCalls := rfl
@[simp] theorem countWrite_stats (s : State) : (countWrite s).stats = { s.stats with memWrites := s.stats.memWrites + 1 } := rfl
@[simp] theorem countWrite_mem (s : State) : (countWrite s).mem = s.mem := rfl

/-! ### countTaken -/

@[simp] theorem countTaken_regs (s : State) : (countTaken s).regs = s.regs := rfl
@[simp] theorem countTaken_pc (s : State) : (countTaken s).pc = s.pc := rfl
@[simp] theorem countTaken_flags (s : State) : (countTaken s).flags = s.flags := rfl
@[simp] theorem countTaken_runState (s : State) : (countTaken s).runState = s.runState := rfl
@[simp] theorem countTaken_output (s : State) : (countTaken s).output = s.output := rfl
@[simp] theorem countTaken_buffer (s : State) : (countTaken s).buffer = s.buffer := rfl
@[simp] theorem countTaken_supplier (s : State) : (countTaken s).supplier = s.supplier := rfl
@[simp] theorem countTaken_supplierCalls (s : State) : (countTaken s).supplierCalls = s.supplierCalls := rfl
@[simp] theorem countTaken_stats (s : State) : (countTaken s).stats = { s.stats with branchesTaken := s.stats.branchesTaken + 1 } := rfl
@[simp] theorem countTaken_mem (s : State) : (countTaken s).mem = s.mem := rfl

/-! ### countNotTaken -/

@[simp] theorem countNotTaken_regs (s : State) : (countNotTaken s).regs = s.regs := rfl
@[simp] theorem countNotTaken_pc (s : State) : (countNotTaken s).pc = s.pc := rfl
@[simp] theorem countNotTaken_flags (s : State) : (countNotTaken s).flags = s.flags := rfl
@[simp] theorem countNotTaken_runState (s : State) : (countNotTaken s).runState = s.runState := rfl
@[simp] theorem countNotTaken_output (s : State) : (countNotTaken s).output = s.output := rfl
@[simp] theorem countNotTaken_buffer (s : State) : (countNotTaken s).buffer = s.buffer := rfl
@[simp] theorem countNotTaken_supplier (s : State) : (countNotTaken s).supplier = s.supplier := rfl
@[simp] theorem countNotTaken_supplierCalls (s : State) : (countNotTaken s).supplierCalls = s.supplierCalls := rfl
@[simp] theorem countNotTaken_stats (s : State) : (countNotTaken s).stats = { s.stats with branchesNotTaken := s.stats.branchesNotTaken + 1 } := rfl
@[simp] theorem countNotTaken_mem (s : State) : (countNotTaken s).mem = s.mem := rfl

/-! ### countInstruction -/

@[simp] theorem countInstruction_regs (s : State) : (countInstruction s).regs = s.regs := rfl
@[simp] theorem countInstruction_pc (s : State) : (countInstruction s).pc = s.pc := rfl
@[simp] theorem countInstruction_flags (s : State) : (countInstruction s).flags = s.flags := rfl
@[simp] theorem countInstruction_runState (s : State) : (countInstruction s).runState = s.runState := rfl
@[simp] theorem countInstruction_output (s : State) : (countInstruction s).output = s.output := rfl
@[simp] theorem countInstruction_buffer (s : State) : (countInstruction s).buffer = s.buffer := rfl
@[simp] theorem countInstruction_supplier (s : State) : (countInstruction s).supplier = s.supplier := rfl
@[simp] theorem countInstruction_supplierCalls (s : State) : (countInstruction s).supplierCalls = s.supplierCalls := rfl
@[simp] theorem countInstruction_stats (s : State) : (countInstruction s).stats = { s.stats with instructions := s.stats.instructions + 1 } := rfl
@[simp] theorem countInstruction_mem (s : State) : (countInstruction s).mem = s.mem := rfl

/-! ### uncountInstruction -/

@[simp] theorem uncountInstruction_regs (s : State) : (uncountInstruction s).regs = s.regs := rfl
@[simp] theorem uncountInstruction_pc (s : State) : (uncountInstruction s).pc = s.pc := rfl
@[simp] theorem uncountInstruction_flags (s : State) : (uncountInstruction s).flags = s.flags := rfl
@[simp] theorem uncountInstruction_runState (s : State) : (uncountInstruction s).runState = s.runState := rfl
@[simp] theorem uncountInstruction_output (s : State) : (uncountInstruction s).output = s.output := rfl
@[simp] theorem uncountInstruction_buffer (s : State) : (uncountInstruction s).buffer = s.buffer := rfl
@[simp] theorem uncountInstruction_supplier (s : State) : (uncountInstruction s).supplier = s.supplier := rfl
@[simp] theorem uncountInstruction_supplierCalls (s : State) : (uncountInstruction s).supplierCalls = s.supplierCalls := rfl
@[simp] theorem uncountInstruction_stats (s : State) : (uncountInstruction s).stats = { s.stats with instructions := s.stats.instructions - 1 } := rfl
@[simp] theorem uncountInstruction_mem (s : State) : (uncountInstruction s).mem = s.mem := rfl

/-! ### waitInput -/

@[simp] theorem waitInput_regs (s : State) : (waitInput s).regs = s.regs := rfl
@[simp] theorem waitInput_pc (s : State) : (waitInput s).pc = s.pc - 1 := rfl
@[simp] theorem waitInput_flags (s : State) : (waitInput s).flags = s.flags := rfl
@[simp] theorem waitInput_runState (s : State) : (waitInput s).runState = .waitingForInput := rfl
@[simp] theorem waitInput_output (s : State) : (waitInput s).output = s.output := rfl
@[simp] theorem waitInput_buffer (s : State) : (waitInput s).buffer = s.buffer := rfl
@[simp] theorem waitInput_supplier (s : State) : (waitInput s).supplier = s.supplier := rfl
@[simp] theorem waitInput_supplierCalls (s : State) : (waitInput s).supplierCalls = s.supplierCalls := rfl
@[simp] theorem waitInput_stats (s : State) : (waitInput s).stats = { s.stats with instructions := s.stats.instructions - 1 } := rfl
@[simp] theorem waitInput_mem (s : State) : (waitInput s).mem = s.mem := rfl

end Sys2Proof.Machine
end

