-- ==== Sys2Proof/Laws/Memory.lean ====
section
/-! SUPPORT. The raw memory array: read after write, and the canonical form that every write keeps. -/

namespace Sys2Proof.Machine

/-- What the canonical form says of a memory that has a first entry. -/
theorem Memory.wfFrom_cons {lo a : Nat} {v : Word} {m : Memory} :
    Memory.wfFrom lo ((a, v) :: m) = true ↔
      lo ≤ a ∧ a < 65536 ∧ v ≠ 0#16 ∧ Memory.wfFrom (a + 1) m = true := by
  simp [Memory.wfFrom, and_assoc]

theorem Memory.read_cons (b : Nat) (w : Word) (m : Memory) (a : Nat) :
    Memory.read ((b, w) :: m) a = if b = a then w else m.read a := rfl

/-- Below its first entry a canonical memory lists nothing. -/
theorem Memory.read_below {m : Memory} {lo a : Nat} (h : Memory.wfFrom lo m = true) (ha : a < lo) :
    m.read a = 0#16 := by
  induction m generalizing lo with
  | nil => rfl
  | cons e m ih =>
    obtain ⟨hb, -, -, hm⟩ := Memory.wfFrom_cons.1 h
    rw [Memory.read_cons, if_neg (by omega)]
    exact ih hm (by omega)

theorem Memory.wfFrom_mono {m : Memory} {lo lo' : Nat} (h : Memory.wfFrom lo m = true) (hl : lo' ≤ lo) :
    Memory.wfFrom lo' m = true := by
  cases m with
  | nil => rfl
  | cons e m =>
    obtain ⟨hb, hrest⟩ := Memory.wfFrom_cons.1 h
    exact Memory.wfFrom_cons.2 ⟨by omega, hrest⟩

/-- A write leaves every other address alone, canonical or not. -/
theorem Memory.read_write_ne (m : Memory) {a b : Nat} (v : Word) (h : b ≠ a) : (m.write a v).read b = m.read b := by
  induction m with
  | nil => by_cases hv : v = 0#16 <;> simp [Memory.write, Memory.read, hv, Ne.symm h]
  | cons e m ih =>
    obtain ⟨c, w⟩ := e
    unfold Memory.write
    by_cases hac : a < c
    · by_cases hv : v = 0#16 <;> simp [hac, hv, Memory.read_cons, Ne.symm h]
    · by_cases hca : a = c
      · subst hca
        by_cases hv : v = 0#16 <;> simp [hv, Memory.read_cons, Ne.symm h]
      · simp [hac, hca, Memory.read_cons, ih]

/-- A read of the written address of a canonical memory gives the value written. -/
theorem Memory.read_write_same {m : Memory} {lo : Nat} (h : Memory.wfFrom lo m = true) (a : Nat) (v : Word) :
    (m.write a v).read a = v := by
  induction m generalizing lo with
  | nil => by_cases hv : v = 0#16 <;> simp [Memory.write, Memory.read, hv]
  | cons e m ih =>
    obtain ⟨c, w⟩ := e
    obtain ⟨-, -, -, hm⟩ := Memory.wfFrom_cons.1 h
    unfold Memory.write
    by_cases hac : a < c
    · by_cases hv : v = 0#16
      · simp [hac, hv, Memory.read_cons, Memory.read_below hm (show a < c + 1 by omega), show c ≠ a by omega]
      · simp [hac, hv, Memory.read_cons]
    · by_cases hca : a = c
      · subst hca
        by_cases hv : v = 0#16
        · simp [hv, Memory.read_below hm (show a < a + 1 by omega)]
        · simp [hv, Memory.read_cons]
      · simp [hac, hca, Memory.read_cons, ih hm, Ne.symm hca]

/-- Every write inside the address space keeps the canonical form. -/
theorem Memory.write_wfFrom {m : Memory} {lo : Nat} (h : Memory.wfFrom lo m = true) {a : Nat} (v : Word)
    (hlo : lo ≤ a) (ha : a < 65536) : Memory.wfFrom lo (m.write a v) = true := by
  induction m generalizing lo with
  | nil =>
    by_cases hv : v = 0#16
    · simp [Memory.write, Memory.wfFrom, hv]
    · simp [Memory.write, Memory.wfFrom, hv, hlo, ha]
  | cons e m ih =>
    obtain ⟨c, w⟩ := e
    obtain ⟨hc, hc', hw, hm⟩ := Memory.wfFrom_cons.1 h
    unfold Memory.write
    by_cases hac : a < c
    · by_cases hv : v = 0#16
      · simpa [hac, hv] using h
      · rw [if_pos hac, if_neg hv]
        exact Memory.wfFrom_cons.2 ⟨hlo, ha, hv, Memory.wfFrom_cons.2 ⟨by omega, hc', hw, hm⟩⟩
    · rw [if_neg hac]
      by_cases hca : a = c
      · subst hca
        by_cases hv : v = 0#16
        · simpa [hv] using Memory.wfFrom_mono hm (by omega)
        · rw [if_pos rfl, if_neg hv]
          exact Memory.wfFrom_cons.2 ⟨hlo, ha, hv, hm⟩
      · rw [if_neg hca]
        exact Memory.wfFrom_cons.2 ⟨hc, hc', hw, ih hm (by omega)⟩

/-- Reset's memory is canonical. -/
theorem State.reset_mem_wf : State.reset.mem.wf = true := rfl

/-- A read of the word just written, in a canonical memory (R81). -/
theorem rawRead_rawWrite_same {s : State} (h : s.mem.wf = true) (a v : Word) : rawRead (rawWrite s a v) a = v := by
  simp [rawRead, Memory.read_write_same h]

/-- A raw write leaves every other array word alone (R81). -/
theorem rawRead_rawWrite_ne (s : State) {a b : Word} (v : Word) (h : b ≠ a) :
    rawRead (rawWrite s a v) b = rawRead s b := by
  simp [rawRead, Memory.read_write_ne s.mem v (mt BitVec.eq_of_toNat_eq h)]

/-- `RawWrite` keeps the canonical form. -/
theorem rawWrite_wf {s : State} (h : s.mem.wf = true) (a v : Word) : (rawWrite s a v).mem.wf = true :=
  Memory.write_wfFrom h v (Nat.zero_le _) a.isLt

/-- The array words of a state depend on its memory alone. -/
theorem rawRead_congr {s t : State} (h : t.mem = s.mem) (a : Word) : rawRead t a = rawRead s a := by
  simp [rawRead, h]

end Sys2Proof.Machine
end

