-- ==== Sys2Proof/Laws/Registers.lean ====
section
/-! SUPPORT. Read after write in the register file, and the flags of a value. -/

namespace Sys2Proof.Machine

@[simp] theorem RegFile.get_set_same (f : RegFile) (r : Reg) (v : Word) : (f.set r v).get r = v := by
  cases r <;> rfl

theorem RegFile.get_set_ne (f : RegFile) {r r' : Reg} (v : Word) (h : r' ≠ r) : (f.set r v).get r' = f.get r' := by
  cases r <;> cases r' <;> first | rfl | exact absurd rfl h

/-- Read of any register after a write of any. -/
theorem readReg_writeReg (s : State) (r r' : Reg) (v : Word) :
    readReg (writeReg s r v) r' = if r' = r then v else readReg s r' := by
  by_cases h : r' = r
  · subst h; simp [readReg]
  · simp [readReg, h, RegFile.get_set_ne]

@[simp] theorem readReg_writeReg_same (s : State) (r : Reg) (v : Word) : readReg (writeReg s r v) r = v := by
  simp [readReg_writeReg]

@[simp] theorem readReg_writeResult_same (s : State) (r : Reg) (v : Word) : readReg (writeResult s r v) r = v := by
  simp [readReg]

theorem readReg_writeResult_ne (s : State) {r r' : Reg} (v : Word) (h : r' ≠ r) :
    readReg (writeResult s r v) r' = readReg s r' := by
  simp [readReg, RegFile.get_set_ne _ _ h]

/-- Exactly one flag of a value is set (R36). -/
@[simp] theorem flagsOf_exactlyOne (v : Word) :
    ((flagsOf v).n && !(flagsOf v).z && !(flagsOf v).p || !(flagsOf v).n && (flagsOf v).z && !(flagsOf v).p
      || !(flagsOf v).n && !(flagsOf v).z && (flagsOf v).p) = true := by
  by_cases h : v = 0
  · subst h; decide
  · cases hm : v.msb <;> simp_all [flagsOf]

end Sys2Proof.Machine
end

