-- ==== Sys2Proof/Laws/Ops.lean ====
section
/-! SUPPORT. One lemma per shared operation that says once everything it can do: the intercept's reads and writes,
input, the fetch, the string loops. The provers cite these instead of unfolding the operations. -/

namespace Sys2Proof.Machine

/-! ### Extension and addresses -/

/-- `sext` is exact: the word of the field's signed value (R13, R106). -/
theorem sext_eq_word {n : Nat} (v : BitVec n) : sext v = word v.toInt := by
  simp [sext, word, BitVec.signExtend]

/-- Adding a sign-extended field, as integers modulo 2^16 (R107). -/
theorem add_sext_eq_word {n : Nat} (a : Word) (v : BitVec n) : a + sext v = word (a.toInt + v.toInt) := by
  rw [sext_eq_word, word, word, BitVec.ofInt_add, BitVec.ofInt_toInt]

theorem pcRelative_congr {s t : State} (h : t.pc = s.pc) {n : Nat} (off : BitVec n) :
    pcRelative t off = pcRelative s off := by
  simp [pcRelative, h]

/-- The PC-relative address as an integer modulo 2^16 (R107). -/
theorem pcRelative_eq_word (s : State) {n : Nat} (off : BitVec n) : pcRelative s off = word (s.pc.toNat + off.toInt) := by
  rw [pcRelative, sext_eq_word, word, word, BitVec.ofInt_add, BitVec.ofInt_natCast, BitVec.ofNat_toNat,
    BitVec.setWidth_eq]

/-- The base+offset address as an integer modulo 2^16 (R107). -/
theorem baseOffset_eq_word (s : State) (base : Reg) (off6 : BitVec 6) :
    baseOffset s base off6 = word ((readReg s base).toNat + off6.toInt) := by
  rw [baseOffset, sext_eq_word, word, word, BitVec.ofInt_add, BitVec.ofInt_natCast, BitVec.ofNat_toNat,
    BitVec.setWidth_eq]

/-- A character's code in a word (R13). -/
theorem zext_toNat (c : Byte) : (zext c).toNat = c.toNat := by
  have := c.isLt
  simp only [zext, BitVec.toNat_setWidth]
  omega

/-! ### Flags -/

/-- `setcc`'s flags describe the value (R36). -/
theorem flagsOf_describe (v : Word) : FlagsDescribe (flagsOf v) v where
  n := by simp [flagsOf, BitVec.msb_eq_toInt]
  z := by simp [flagsOf, ← BitVec.toInt_inj]
  p := by
    have h0 : v = 0#16 ↔ v.toInt = 0 := by simp [← BitVec.toInt_inj]
    simp only [flagsOf, BitVec.msb_eq_toInt, ne_eq, h0, Bool.and_eq_true, Bool.not_eq_true',
      decide_eq_false_iff_not, decide_eq_true_eq]
    omega

@[simp] theorem flagsOf_valid (v : Word) : (flagsOf v).exactlyOne = true := flagsOf_exactlyOne v

/-! ### Reads and writes through the intercept -/

/-- A read through the intercept changes at most the input buffer, and that only at KBDR (R64, R77). -/
theorem memRead_state (s : State) (a : Word) :
    (memRead s a).2 = if a = kbdrAddr then { s with buffer := s.buffer.tail } else s := by
  by_cases hk : a = kbdrAddr
  · subst hk
    cases hb : s.buffer <;> simp [memRead, kbdrRead, kbsrAddr, kbdrAddr, hb]
    rw [← hb]
  · simp only [memRead, if_neg hk]
    split_ifs <;> rfl

@[simp] theorem memRead_regs (s : State) (a : Word) : (memRead s a).2.regs = s.regs := by
  rw [memRead_state]; split_ifs <;> rfl
@[simp] theorem memRead_pc (s : State) (a : Word) : (memRead s a).2.pc = s.pc := by
  rw [memRead_state]; split_ifs <;> rfl
@[simp] theorem memRead_flags (s : State) (a : Word) : (memRead s a).2.flags = s.flags := by
  rw [memRead_state]; split_ifs <;> rfl
@[simp] theorem memRead_runState (s : State) (a : Word) : (memRead s a).2.runState = s.runState := by
  rw [memRead_state]; split_ifs <;> rfl
@[simp] theorem memRead_output (s : State) (a : Word) : (memRead s a).2.output = s.output := by
  rw [memRead_state]; split_ifs <;> rfl
@[simp] theorem memRead_buffer (s : State) (a : Word) :
    (memRead s a).2.buffer = if a = kbdrAddr then s.buffer.tail else s.buffer := by
  rw [memRead_state]; split_ifs <;> rfl
@[simp] theorem memRead_supplier (s : State) (a : Word) : (memRead s a).2.supplier = s.supplier := by
  rw [memRead_state]; split_ifs <;> rfl
@[simp] theorem memRead_supplierCalls (s : State) (a : Word) :
    (memRead s a).2.supplierCalls = s.supplierCalls := by
  rw [memRead_state]; split_ifs <;> rfl
@[simp] theorem memRead_stats (s : State) (a : Word) : (memRead s a).2.stats = s.stats := by
  rw [memRead_state]; split_ifs <;> rfl
@[simp] theorem memRead_mem (s : State) (a : Word) : (memRead s a).2.mem = s.mem := by
  rw [memRead_state]; split_ifs <;> rfl

/-- The value a read gives, by address (R64, R69-R76). -/
theorem memRead_value (s : State) (a : Word) :
    (memRead s a).1 =
      if a = 0xFE00#16 then (if s.buffer = [] then 0#16 else 0x8000#16)
      else if a = 0xFE02#16 then (match s.buffer with | [] => 0#16 | c :: _ => zext c)
      else if a = 0xFE04#16 then 0x8000#16
      else if a = 0xFFFE#16 then (if s.runState = .halted then 0#16 else 0x8000#16)
      else rawRead s a := by
  unfold memRead
  split_ifs <;> simp_all [kbsrAddr, kbdrAddr, dsrAddr, mcrAddr, kbsrRead, dsrRead, mcrRead, kbdrRead]
  cases s.buffer <;> rfl

/-- A read outside the four intercepted addresses is a raw read with no effect (R76). -/
theorem memRead_plain (s : State) {a : Word} (h : fetchIntercepted a = false) : memRead s a = (rawRead s a, s) := by
  simp only [fetchIntercepted, decide_eq_false_iff_not, not_or] at h
  simp [memRead, h]

/-- A write changes the output (at DDR), the run state (at MCR) or the array, nothing else (R65). -/
theorem memWrite_cases (s : State) (a v : Word) :
    (a = ddrAddr ∧ memWrite s a v = emit s (lowByte v)) ∨
    (a = mcrAddr ∧ v.msb = true ∧ memWrite s a v = s) ∨
    (a = mcrAddr ∧ v.msb = false ∧ memWrite s a v = halt s) ∨
    (a ≠ ddrAddr ∧ a ≠ mcrAddr ∧ memWrite s a v = rawWrite s a v) := by
  by_cases h1 : a = ddrAddr
  · simp [memWrite, ddrWrite, h1]
  · by_cases h2 : a = mcrAddr
    · cases hv : v.msb <;> simp [memWrite, mcrWrite, h2, hv, ddrAddr, mcrAddr]
    · simp [memWrite, h1, h2]

@[simp] theorem memWrite_regs (s : State) (a v : Word) : (memWrite s a v).regs = s.regs := by
  obtain ⟨-, h⟩ | ⟨-, -, h⟩ | ⟨-, -, h⟩ | ⟨-, -, h⟩ := memWrite_cases s a v <;> simp [h]
@[simp] theorem memWrite_pc (s : State) (a v : Word) : (memWrite s a v).pc = s.pc := by
  obtain ⟨-, h⟩ | ⟨-, -, h⟩ | ⟨-, -, h⟩ | ⟨-, -, h⟩ := memWrite_cases s a v <;> simp [h]
@[simp] theorem memWrite_flags (s : State) (a v : Word) : (memWrite s a v).flags = s.flags := by
  obtain ⟨-, h⟩ | ⟨-, -, h⟩ | ⟨-, -, h⟩ | ⟨-, -, h⟩ := memWrite_cases s a v <;> simp [h]
@[simp] theorem memWrite_buffer (s : State) (a v : Word) : (memWrite s a v).buffer = s.buffer := by
  obtain ⟨-, h⟩ | ⟨-, -, h⟩ | ⟨-, -, h⟩ | ⟨-, -, h⟩ := memWrite_cases s a v <;> simp [h]
@[simp] theorem memWrite_supplier (s : State) (a v : Word) : (memWrite s a v).supplier = s.supplier := by
  obtain ⟨-, h⟩ | ⟨-, -, h⟩ | ⟨-, -, h⟩ | ⟨-, -, h⟩ := memWrite_cases s a v <;> simp [h]
@[simp] theorem memWrite_supplierCalls (s : State) (a v : Word) :
    (memWrite s a v).supplierCalls = s.supplierCalls := by
  obtain ⟨-, h⟩ | ⟨-, -, h⟩ | ⟨-, -, h⟩ | ⟨-, -, h⟩ := memWrite_cases s a v <;> simp [h]
@[simp] theorem memWrite_stats (s : State) (a v : Word) : (memWrite s a v).stats = s.stats := by
  obtain ⟨-, h⟩ | ⟨-, -, h⟩ | ⟨-, -, h⟩ | ⟨-, -, h⟩ := memWrite_cases s a v <;> simp [h]

/-- A write through the intercept keeps the memory's canonical form. -/
theorem memWrite_wf {s : State} (h : s.mem.wf = true) (a v : Word) : (memWrite s a v).mem.wf = true := by
  obtain ⟨-, e⟩ | ⟨-, -, e⟩ | ⟨-, -, e⟩ | ⟨-, -, e⟩ := memWrite_cases s a v
  · simpa [e] using h
  · simpa [e] using h
  · simpa [e] using h
  · rw [e]; exact rawWrite_wf h a v

/-- What a write does, in the claims' terms (R65). -/
theorem memWrite_wrote {s : State} (h : s.mem.wf = true) (a v : Word) : Wrote a v s (memWrite s a v) := by
  have cases := memWrite_cases s a v
  simp only [ddrAddr, mcrAddr] at cases
  obtain ⟨ha, e⟩ | ⟨ha, hv, e⟩ | ⟨ha, hv, e⟩ | ⟨h1, h2, e⟩ := cases
  · subst ha
    exact ⟨by simp, fun _ => by simp [e, rawRead], fun _ _ => by simp [e, rawRead], fun _ => by simp [e, lowByte],
      by simp, by simp, fun _ => by simp [e]⟩
  · subst ha
    exact ⟨by simp, fun _ => by simp [e], fun _ _ => by simp [e], by simp, fun _ => by simp [e],
      fun _ h' => absurd hv (by rw [BitVec.msb_eq_getLsbD_last]; simpa using h'), fun _ => by simp [e]⟩
  · subst ha
    exact ⟨by simp, fun _ => by simp [e, rawRead], fun _ _ => by simp [e, rawRead], by simp,
      fun _ => by simp [e], fun _ _ => by simp [e],
      fun h' => absurd hv (by rw [BitVec.msb_eq_getLsbD_last]; simpa using h')⟩
  · exact ⟨fun _ _ => by rw [e, rawRead_rawWrite_same h], fun h' => absurd h' (by simp [h1, h2]),
      fun b hb => by rw [e, rawRead_rawWrite_ne s v hb], fun h' => absurd h' h1, fun _ => by simp [e],
      fun h' => absurd h' h2, fun _ => by simp [e]⟩

/-! ### The console -/

/-- `emitAll` appends its characters in order and changes nothing else. -/
theorem emitAll_eq (s : State) (cs : List Byte) : emitAll s cs = { s with output := s.output ++ cs } := by
  induction cs generalizing s with
  | nil => simp [emitAll]
  | cons c cs ih =>
    have := ih (emit s c)
    simp only [emitAll, List.foldl_cons] at this ⊢
    rw [this]
    simp [emit]

/-! ### Input -/

/-- Everything `take_input()` can do (R42): take the buffer's front; call the supplier, listed answer or free; or,
with neither, answer nothing. -/
theorem takeInput_cases (s : State) :
    (∃ c rest, s.buffer = c :: rest ∧ takeInput s = (some c, { s with buffer := rest })) ∨
    (∃ r rest, s.buffer = [] ∧ s.supplier = some (r :: rest) ∧
      takeInput s = (r, { s with supplier := some rest, supplierCalls := s.supplierCalls + 1 })) ∨
    (s.buffer = [] ∧ s.supplier = some [] ∧
      takeInput s = (Config.supplierAnswer s.supplierCalls, { s with supplierCalls := s.supplierCalls + 1 })) ∨
    (s.buffer = [] ∧ s.supplier = none ∧ takeInput s = (none, s)) := by
  rcases hb : s.buffer with _ | ⟨c, rest⟩
  · rcases hs : s.supplier with _ | (_ | ⟨r, rest⟩) <;> simp [takeInput, callSupplier, hb, hs]
  · simp [takeInput, hb]

@[simp] theorem takeInput_regs (s : State) : (takeInput s).2.regs = s.regs := by
  obtain ⟨_, _, _, h⟩ | ⟨_, _, _, _, h⟩ | ⟨_, _, h⟩ | ⟨_, _, h⟩ := takeInput_cases s <;> simp [h]
@[simp] theorem takeInput_pc (s : State) : (takeInput s).2.pc = s.pc := by
  obtain ⟨_, _, _, h⟩ | ⟨_, _, _, _, h⟩ | ⟨_, _, h⟩ | ⟨_, _, h⟩ := takeInput_cases s <;> simp [h]
@[simp] theorem takeInput_flags (s : State) : (takeInput s).2.flags = s.flags := by
  obtain ⟨_, _, _, h⟩ | ⟨_, _, _, _, h⟩ | ⟨_, _, h⟩ | ⟨_, _, h⟩ := takeInput_cases s <;> simp [h]
@[simp] theorem takeInput_runState (s : State) : (takeInput s).2.runState = s.runState := by
  obtain ⟨_, _, _, h⟩ | ⟨_, _, _, _, h⟩ | ⟨_, _, h⟩ | ⟨_, _, h⟩ := takeInput_cases s <;> simp [h]
@[simp] theorem takeInput_output (s : State) : (takeInput s).2.output = s.output := by
  obtain ⟨_, _, _, h⟩ | ⟨_, _, _, _, h⟩ | ⟨_, _, h⟩ | ⟨_, _, h⟩ := takeInput_cases s <;> simp [h]
@[simp] theorem takeInput_stats (s : State) : (takeInput s).2.stats = s.stats := by
  obtain ⟨_, _, _, h⟩ | ⟨_, _, _, _, h⟩ | ⟨_, _, h⟩ | ⟨_, _, h⟩ := takeInput_cases s <;> simp [h]
@[simp] theorem takeInput_mem (s : State) : (takeInput s).2.mem = s.mem := by
  obtain ⟨_, _, _, h⟩ | ⟨_, _, _, _, h⟩ | ⟨_, _, h⟩ | ⟨_, _, h⟩ := takeInput_cases s <;> simp [h]

/-! ### The fetch -/

/-- What the fetch leaves, field by field, at the spec values (R100): ready, PC and instruction count one further, a
pending character consumed only where the PC is at KBDR. -/
theorem fetch_state (s : State) :
    (fetch params s).2 =
      { s with
        runState := .ready
        pc := s.pc + 1#16
        buffer := if s.pc = kbdrAddr then s.buffer.tail else s.buffer
        stats := { s.stats with instructions := s.stats.instructions + 1 } } := by
  simp only [fetch, params, memRead_state, Bool.false_eq_true, if_false]
  split_ifs <;> rfl

/-- The word fetched is the one at the PC, read through the intercept of a running engine (R100). -/
theorem fetch_word (cfg : Config) (s : State) : (fetch cfg s).1 = (memRead { s with runState := .ready } s.pc).1 := rfl

/-! ### The string loops -/

/-- The console output plays no part in a read. -/
theorem memRead_output_irrelevant (s : State) (o : List Byte) (a : Word) :
    memRead { s with output := o } a = ((memRead s a).1, { (memRead s a).2 with output := o }) := by
  have h2 : (memRead { s with output := o } a).2 = { (memRead s a).2 with output := o } := by
    rw [memRead_state, memRead_state]
    split_ifs <;> rfl
  have h1 : (memRead { s with output := o } a).1 = (memRead s a).1 := by
    rw [memRead_value, memRead_value]
    rfl
  rw [← h1, ← h2]

theorem ReadsString.with_output {s t : State} {a : Word} {ws : List Word} (h : ReadsString s a ws t)
    (o : List Byte) : ReadsString { s with output := o } a ws { t with output := o } := by
  induction h with
  | done s a h0 =>
    have := ReadsString.done { s with output := o } a (by rw [memRead_output_irrelevant]; exact h0)
    rwa [memRead_output_irrelevant] at this
  | more s a ws t h0 _ ih =>
    have := ReadsString.more { s with output := o } a ws { t with output := o }
      (by rw [memRead_output_irrelevant]; exact h0) (by rw [memRead_output_irrelevant]; exact ih)
    rwa [memRead_output_irrelevant] at this

/-- Reading a string consumes pending characters at most: everything but the buffer stays. -/
theorem ReadsString.state {s t : State} {a : Word} {ws : List Word} (h : ReadsString s a ws t) :
    t = { s with buffer := t.buffer } := by
  induction h with
  | done s a _ => rw [memRead_state]; split_ifs <;> rfl
  | more s a ws t _ _ ih =>
    rw [ih, memRead_state]
    split_ifs <;> rfl

/-- PUTS's loop, at the spec values, emits the low byte of each word it reads (R235). -/
theorem putsLoop_of_readsString {s t : State} {a : Word} {ws : List Word} (h : ReadsString s a ws t) {n : Nat}
    (hn : ws.length < n) :
    putsLoop params n a s = some { t with output := s.output ++ ws.map lowByte } := by
  induction ws generalizing s a n t with
  | nil =>
    cases h with
    | done _ _ h0 =>
      obtain ⟨m, rfl⟩ : ∃ m, n = m + 1 := ⟨n - 1, by simp at hn; omega⟩
      rw [putsLoop]
      simp only [h0, if_true, countStringRead, params, Bool.false_eq_true, if_false, List.map_nil, List.append_nil,
        ← memRead_output s a]
  | cons w ws ih =>
    cases h with
    | more _ _ _ _ h0 hrest =>
      obtain ⟨m, rfl⟩ : ∃ m, n = m + 1 := ⟨n - 1, by simp at hn; omega⟩
      have h1 := ih (n := m) (hrest.with_output (s.output ++ [lowByte (memRead s a).1])) (by simpa using hn)
      have h2 : emit (memRead s a).2 (lowByte (memRead s a).1) =
          { (memRead s a).2 with output := s.output ++ [lowByte (memRead s a).1] } := by simp [emit]
      rw [putsLoop]
      simp only [h0, if_false, countStringRead, params, Bool.false_eq_true] at h1 ⊢
      rw [h2, h1]
      simp

/-- PUTS's loop ends only where a string ends. -/
theorem readsString_of_putsLoop {n : Nat} {s u : State} {a : Word} (h : putsLoop params n a s = some u) :
    ∃ ws t, ws.length < n ∧ ReadsString s a ws t := by
  induction n generalizing s a with
  | zero => simp [putsLoop] at h
  | succ n ih =>
    by_cases h0 : (memRead s a).1 = 0#16
    · exact ⟨[], _, by simp, ReadsString.done s a h0⟩
    · simp only [putsLoop, h0, if_false, countStringRead, params, Bool.false_eq_true] at h
      obtain ⟨ws, t, hlen, hr⟩ := ih h
      have hr' := hr.with_output (memRead s a).2.output
      exact ⟨(memRead s a).1 :: ws, _, by simpa using hlen, ReadsString.more s a ws _ h0 hr'⟩

/-- What PUTSP writes of one word at the spec value emit: the low byte, then the high byte unless it is zero (R237). -/
def packedPair (w : Word) : List Byte := lowByte w :: (if highByte w = 0#8 then [] else [highByte w])

theorem packedChars_emit (w : Word) : packedChars .emit w = some (packedPair w) := by
  by_cases h : lowByte w = 0#8 <;> simp [packedChars, packedPair, h]

/-- PUTSP's loop, at the spec values, emits the pair of each word it reads (R237). -/
theorem putspLoop_of_readsString {s t : State} {a : Word} {ws : List Word} (h : ReadsString s a ws t) {n : Nat}
    (hn : ws.length < n) :
    putspLoop params n a s = some { t with output := s.output ++ ws.flatMap packedPair } := by
  induction ws generalizing s a n t with
  | nil =>
    cases h with
    | done _ _ h0 =>
      obtain ⟨m, rfl⟩ : ∃ m, n = m + 1 := ⟨n - 1, by simp at hn; omega⟩
      rw [putspLoop]
      simp only [h0, if_true, countStringRead, params, Bool.false_eq_true, if_false, List.flatMap_nil, List.append_nil,
        ← memRead_output s a]
  | cons w ws ih =>
    cases h with
    | more _ _ _ _ h0 hrest =>
      obtain ⟨m, rfl⟩ : ∃ m, n = m + 1 := ⟨n - 1, by simp at hn; omega⟩
      have h1 := ih (n := m) (hrest.with_output (s.output ++ packedPair (memRead s a).1)) (by simpa using hn)
      rw [putspLoop]
      simp only [h0, if_false, countStringRead, params, Bool.false_eq_true, packedChars_emit, emitAll_eq,
        memRead_output] at h1 ⊢
      rw [h1]
      simp

/-- PUTSP's loop, at the spec values, ends only where a string ends. -/
theorem readsString_of_putspLoop {n : Nat} {s u : State} {a : Word} (h : putspLoop params n a s = some u) :
    ∃ ws t, ws.length < n ∧ ReadsString s a ws t := by
  induction n generalizing s a with
  | zero => simp [putspLoop] at h
  | succ n ih =>
    by_cases h0 : (memRead s a).1 = 0#16
    · exact ⟨[], _, by simp, ReadsString.done s a h0⟩
    · simp only [putspLoop, h0, if_false, countStringRead, params, Bool.false_eq_true, packedChars_emit,
        emitAll_eq] at h
      obtain ⟨ws, t, hlen, hr⟩ := ih h
      have hr' := hr.with_output (memRead s a).2.output
      exact ⟨(memRead s a).1 :: ws, _, by simpa using hlen, ReadsString.more s a ws _ h0 hr'⟩

end Sys2Proof.Machine
end

