-- ==== Sys2Proof/Laws/Exec.lean ====
section
/-! SUPPORT. What an executed instruction can do, said once: `exec_effect`. A whole-machine rule is a case analysis of
it. -/

namespace Sys2Proof.Machine

/-- TRAP as a term behaves as the service of its vector; with any other vector it does nothing (R231, R240). -/
theorem exec_trap_cases (v : BitVec 8) (s : State) :
    (v = 0x20#8 ∧ exec (.trap v) s = exec .getc s) ∨ (v = 0x21#8 ∧ exec (.trap v) s = exec .out s) ∨
    (v = 0x22#8 ∧ exec (.trap v) s = exec .puts s) ∨ (v = 0x23#8 ∧ exec (.trap v) s = exec .inChar s) ∨
    (v = 0x24#8 ∧ exec (.trap v) s = exec .putsp s) ∨ (v = 0x25#8 ∧ exec (.trap v) s = exec .halt s) ∨
    ((v ≠ 0x20#8 ∧ v ≠ 0x21#8 ∧ v ≠ 0x22#8 ∧ v ≠ 0x23#8 ∧ v ≠ 0x24#8 ∧ v ≠ 0x25#8) ∧
      exec (.trap v) s = .next s) := by
  by_cases h0 : v = 0x20#8
  · subst h0; exact .inl ⟨rfl, rfl⟩
  by_cases h1 : v = 0x21#8
  · subst h1; exact .inr (.inl ⟨rfl, rfl⟩)
  by_cases h2 : v = 0x22#8
  · subst h2; exact .inr (.inr (.inl ⟨rfl, rfl⟩))
  by_cases h3 : v = 0x23#8
  · subst h3; exact .inr (.inr (.inr (.inl ⟨rfl, rfl⟩)))
  by_cases h4 : v = 0x24#8
  · subst h4; exact .inr (.inr (.inr (.inr (.inl ⟨rfl, rfl⟩))))
  by_cases h5 : v = 0x25#8
  · subst h5; exact .inr (.inr (.inr (.inr (.inr (.inl ⟨rfl, rfl⟩)))))
  refine .inr (.inr (.inr (.inr (.inr (.inr ⟨⟨h0, h1, h2, h3, h4, h5⟩, ?_⟩)))))
  simp only [exec, execTrap, performTrap, h0, h1, h2, h3, h4, h5, if_false]
  rfl

/-- The shape of an instruction: its destination, its store, and which kind of trap it is. -/
structure Shape (i : Instr) (s : State) (dest : Option Reg) (store : Option (Word × Word))
    (haltTrap inputTrap : Bool) : Prop where
  dest : i.destination = dest
  store : i.store s = store
  haltTrap : i.isHaltTrap = haltTrap
  inputTrap : i.isInputTrap = inputTrap

/-- The states an instruction can lead to, by its shape: a register and the flags from it (`result`), a character
received (`received`), a blocked input trap (`blocked`), a write through the intercept (`wrote`), a change of PC and
statistics alone (`control`), console output (`console`), the halt (`halted`). -/
inductive Effect (i : Instr) (s : State) : State → Prop where
  | result (dr : Reg) (v pc : Word) (st : Stats) (b : List Byte) : Shape i s (some dr) none false false →
      Effect i s { s with regs := s.regs.set dr v, flags := flagsOf v, pc := pc, stats := st, buffer := b }
  | received (c : Byte) (o : List Byte) : Shape i s (some .r0) none false true → (takeInput s).1 = some c →
      Effect i s { (takeInput s).2 with
        regs := s.regs.set .r0 (zext c), flags := flagsOf (zext c), output := s.output ++ o }
  | blocked : Shape i s (some .r0) none false true → (takeInput s).1 = none → Effect i s (waitInput (takeInput s).2)
  | wrote (a v : Word) (st : Stats) (b : List Byte) : Shape i s none (some (a, v)) false false →
      Effect i s { memWrite s a v with stats := st, buffer := b }
  | control (pc : Word) (st : Stats) : Shape i s none none false false →
      Effect i s { s with pc := pc, stats := st }
  | console (o b : List Byte) : Shape i s none none false false →
      Effect i s { s with output := s.output ++ o, buffer := b }
  | halted : Shape i s none none true false → Effect i s (halt s)

/-- A read changes at most buffer and, counted, statistics. -/
theorem readPointer_state (s : State) (off9 : BitVec 9) :
    ∃ b st, (readPointer s off9).2 = { s with buffer := b, stats := st } := by
  simp only [readPointer, memRead_state]
  split_ifs <;> exact ⟨_, _, rfl⟩

theorem loadFrom_effect {i : Instr} {s s1 : State} {dr : Reg} (ea : Word)
    (hs : ∃ b st, s1 = { s with buffer := b, stats := st }) (hi : Shape i s (some dr) none false false) :
    Effect i s (loadFrom s1 dr ea) := by
  obtain ⟨b, st, rfl⟩ := hs
  have e : loadFrom { s with buffer := b, stats := st } dr ea =
      { s with
        regs := s.regs.set dr (memRead { s with buffer := b, stats := st } ea).1
        flags := flagsOf (memRead { s with buffer := b, stats := st } ea).1
        pc := s.pc
        stats := { st with memReads := st.memReads + 1 }
        buffer := (memRead { s with buffer := b, stats := st } ea).2.buffer } := by
    unfold loadFrom
    rw [memRead_state]
    split_ifs <;> rfl
  rw [e]
  exact .result dr _ _ _ _ hi

theorem storeTo_effect {i : Instr} {s s1 : State} {a v : Word}
    (hs : ∃ b st, s1 = { s with buffer := b, stats := st }) (hi : Shape i s none (some (a, v)) false false) :
    Effect i s (storeTo s1 a v) := by
  obtain ⟨b, st, rfl⟩ := hs
  have e : storeTo { s with buffer := b, stats := st } a v =
      { memWrite s a v with stats := { st with memWrites := st.memWrites + 1 }, buffer := b } := by
    simp only [storeTo, memWrite]
    split_ifs <;> try rfl
    simp only [mcrWrite]
    split_ifs <;> rfl
  rw [e]
  exact .wrote _ _ _ _ hi

theorem getc_effect {i : Instr} {s t : State} (hi : Shape i s (some .r0) none false true)
    (h : exec .getc s = .next t) : Effect i s t := by
  simp only [exec, execGetc, serviceGetc] at h
  cases hc : (takeInput s).1 with
  | none =>
    rw [show takeInput s = (none, (takeInput s).2) by rw [← hc]] at h
    cases h
    exact .blocked hi hc
  | some c =>
    rw [show takeInput s = (some c, (takeInput s).2) by rw [← hc]] at h
    cases h
    convert Effect.received c [] hi hc using 1
    simp [receiveChar, trapLink, params, writeResult, writeReg, setcc]

theorem inChar_effect {i : Instr} {s t : State} (hi : Shape i s (some .r0) none false true)
    (h : exec .inChar s = .next t) : Effect i s t := by
  simp only [exec, execIn, serviceIn] at h
  cases hc : (takeInput s).1 with
  | none =>
    rw [show takeInput s = (none, (takeInput s).2) by rw [← hc]] at h
    cases h
    exact .blocked hi hc
  | some c =>
    rw [show takeInput s = (some c, (takeInput s).2) by rw [← hc]] at h
    cases h
    convert Effect.received c (params.inPrompt ++ [c]) hi hc using 1
    simp [receiveChar, trapLink, show params.trapLinksR7 = false from rfl, writeResult, writeReg, setcc,
      emitAll_eq, emit]

theorem puts_effect {i : Instr} {s t : State} (hi : Shape i s none none false false)
    (h : exec .puts s = .next t) : Effect i s t := by
  simp only [exec, execPuts, servicePuts, trapLink, show params.trapLinksR7 = false from rfl, Bool.false_eq_true,
    if_false] at h
  cases hp : putsLoop params 65536 (readReg s .r0) s with
  | none => rw [hp] at h; cases h
  | some u =>
    obtain ⟨ws, t', hl, hr⟩ := readsString_of_putsLoop hp
    rw [putsLoop_of_readsString hr hl] at h
    cases h
    rw [hr.state]
    exact .console _ _ hi

theorem putsp_effect {i : Instr} {s t : State} (hi : Shape i s none none false false)
    (h : exec .putsp s = .next t) : Effect i s t := by
  simp only [exec, execPutsp, servicePutsp, trapLink, show params.trapLinksR7 = false from rfl, Bool.false_eq_true,
    if_false] at h
  cases hp : putspLoop params 65536 (readReg s .r0) s with
  | none => rw [hp] at h; cases h
  | some u =>
    obtain ⟨ws, t', hl, hr⟩ := readsString_of_putspLoop hp
    rw [putspLoop_of_readsString hr hl] at h
    cases h
    rw [hr.state]
    exact .console _ _ hi

/-- If an instruction answers a next state, that state is one of its effects. -/
theorem exec_effect {i : Instr} {s t : State} (h : exec i s = .next t) : Effect i s t := by
  cases i with
  | addReg dr a b => cases h; exact .result _ _ _ _ _ ⟨rfl, rfl, rfl, rfl⟩
  | addImm dr a b => cases h; exact .result _ _ _ _ _ ⟨rfl, rfl, rfl, rfl⟩
  | andReg dr a b => cases h; exact .result _ _ _ _ _ ⟨rfl, rfl, rfl, rfl⟩
  | andImm dr a b => cases h; exact .result _ _ _ _ _ ⟨rfl, rfl, rfl, rfl⟩
  | notReg dr a => cases h; exact .result _ _ _ _ _ ⟨rfl, rfl, rfl, rfl⟩
  | lea dr o => cases h; exact .result _ _ _ _ _ ⟨rfl, rfl, rfl, rfl⟩
  | jsr o => cases h; exact .result .r7 s.pc _ _ _ ⟨rfl, rfl, rfl, rfl⟩
  | jsrr b => cases h; exact .result .r7 s.pc _ _ _ ⟨rfl, rfl, rfl, rfl⟩
  | ld dr o => cases h; exact loadFrom_effect _ ⟨_, _, rfl⟩ ⟨rfl, rfl, rfl, rfl⟩
  | ldr dr b o => cases h; exact loadFrom_effect _ ⟨_, _, rfl⟩ ⟨rfl, rfl, rfl, rfl⟩
  | ldi dr o => cases h; exact loadFrom_effect _ (readPointer_state s o) ⟨rfl, rfl, rfl, rfl⟩
  | st sr o => cases h; exact storeTo_effect ⟨_, _, rfl⟩ ⟨rfl, rfl, rfl, rfl⟩
  | str sr b o => cases h; exact storeTo_effect ⟨_, _, rfl⟩ ⟨rfl, rfl, rfl, rfl⟩
  | sti sr o => cases h; exact storeTo_effect (readPointer_state s o) ⟨rfl, rfl, rfl, rfl⟩
  | br n z p o =>
    simp only [exec, execBr] at h
    split at h <;> cases h <;> exact .control _ _ ⟨rfl, rfl, rfl, rfl⟩
  | jmp b => cases h; exact .control _ _ ⟨rfl, rfl, rfl, rfl⟩
  | ret => cases h; exact .control _ _ ⟨rfl, rfl, rfl, rfl⟩
  | rti => cases h; exact .control _ _ ⟨rfl, rfl, rfl, rfl⟩
  | reserved => cases h; exact .control _ _ ⟨rfl, rfl, rfl, rfl⟩
  | out => cases h; exact .console _ _ ⟨rfl, rfl, rfl, rfl⟩
  | halt => cases h; exact .halted ⟨rfl, rfl, rfl, rfl⟩
  | getc => exact getc_effect ⟨rfl, rfl, rfl, rfl⟩ h
  | inChar => exact inChar_effect ⟨rfl, rfl, rfl, rfl⟩ h
  | puts => exact puts_effect ⟨rfl, rfl, rfl, rfl⟩ h
  | putsp => exact putsp_effect ⟨rfl, rfl, rfl, rfl⟩ h
  | trap v =>
    obtain ⟨rfl, e⟩ | ⟨rfl, e⟩ | ⟨rfl, e⟩ | ⟨rfl, e⟩ | ⟨rfl, e⟩ | ⟨rfl, e⟩ | ⟨⟨h0, -, -, h3, -, h5⟩, e⟩ :=
      exec_trap_cases v s
    all_goals rw [e] at h
    · exact getc_effect ⟨rfl, rfl, rfl, rfl⟩ h
    · cases h; exact .console _ _ ⟨rfl, rfl, rfl, rfl⟩
    · exact puts_effect ⟨rfl, rfl, rfl, rfl⟩ h
    · exact inChar_effect ⟨rfl, rfl, rfl, rfl⟩ h
    · exact putsp_effect ⟨rfl, rfl, rfl, rfl⟩ h
    · cases h; exact .halted ⟨rfl, rfl, rfl, rfl⟩
    · cases h
      exact .control _ _ ⟨by simp [Instr.destination, h0, h3], rfl, by simp [Instr.isHaltTrap, h5],
        by simp [Instr.isInputTrap, h0, h3]⟩

end Sys2Proof.Machine
end

