-- ==== Sys2Proof/Laws/PerInstr.lean ====
section
/-! SUPPORT. The family Opcode: the canonical word of every instruction has the opcode the map gives it in bits 15:12
(spec/30_encoding.md R108). One lemma per constructor of `Instr`. -/

namespace Sys2Proof.Laws.Opcode

open Sys2Proof

/-- Bits 15:12 of the instruction's word are its opcode. -/
def Statement (i : Instr) : Prop := bits (encode i) 12 4 = i.opcode

theorem addReg (dr sr1 sr2 : Reg) : Statement (.addReg dr sr1 sr2) := by
  simp only [Statement, encode, bits]
  repeat rw [BitVec.extractLsb'_append_eq_of_le (by decide)]
  rfl

theorem addImm (dr sr1 : Reg) (imm5 : BitVec 5) : Statement (.addImm dr sr1 imm5) := by
  simp only [Statement, encode, bits]
  repeat rw [BitVec.extractLsb'_append_eq_of_le (by decide)]
  rfl

theorem andReg (dr sr1 sr2 : Reg) : Statement (.andReg dr sr1 sr2) := by
  simp only [Statement, encode, bits]
  repeat rw [BitVec.extractLsb'_append_eq_of_le (by decide)]
  rfl

theorem andImm (dr sr1 : Reg) (imm5 : BitVec 5) : Statement (.andImm dr sr1 imm5) := by
  simp only [Statement, encode, bits]
  repeat rw [BitVec.extractLsb'_append_eq_of_le (by decide)]
  rfl

theorem notReg (dr sr : Reg) : Statement (.notReg dr sr) := by
  simp only [Statement, encode, bits]
  repeat rw [BitVec.extractLsb'_append_eq_of_le (by decide)]
  rfl

theorem br (n z p : Bool) (off9 : BitVec 9) : Statement (.br n z p off9) := by
  simp only [Statement, encode, bits]
  repeat rw [BitVec.extractLsb'_append_eq_of_le (by decide)]
  rfl

theorem jmp (base : Reg) : Statement (.jmp base) := by
  simp only [Statement, encode, bits]
  repeat rw [BitVec.extractLsb'_append_eq_of_le (by decide)]
  rfl

theorem ret : Statement .ret := rfl

theorem jsr (off11 : BitVec 11) : Statement (.jsr off11) := by
  simp only [Statement, encode, bits]
  repeat rw [BitVec.extractLsb'_append_eq_of_le (by decide)]
  rfl

theorem jsrr (base : Reg) : Statement (.jsrr base) := by
  simp only [Statement, encode, bits]
  repeat rw [BitVec.extractLsb'_append_eq_of_le (by decide)]
  rfl

theorem ld (dr : Reg) (off9 : BitVec 9) : Statement (.ld dr off9) := by
  simp only [Statement, encode, bits]
  repeat rw [BitVec.extractLsb'_append_eq_of_le (by decide)]
  rfl

theorem ldi (dr : Reg) (off9 : BitVec 9) : Statement (.ldi dr off9) := by
  simp only [Statement, encode, bits]
  repeat rw [BitVec.extractLsb'_append_eq_of_le (by decide)]
  rfl

theorem ldr (dr base : Reg) (off6 : BitVec 6) : Statement (.ldr dr base off6) := by
  simp only [Statement, encode, bits]
  repeat rw [BitVec.extractLsb'_append_eq_of_le (by decide)]
  rfl

theorem lea (dr : Reg) (off9 : BitVec 9) : Statement (.lea dr off9) := by
  simp only [Statement, encode, bits]
  repeat rw [BitVec.extractLsb'_append_eq_of_le (by decide)]
  rfl

theorem st (sr : Reg) (off9 : BitVec 9) : Statement (.st sr off9) := by
  simp only [Statement, encode, bits]
  repeat rw [BitVec.extractLsb'_append_eq_of_le (by decide)]
  rfl

theorem sti (sr : Reg) (off9 : BitVec 9) : Statement (.sti sr off9) := by
  simp only [Statement, encode, bits]
  repeat rw [BitVec.extractLsb'_append_eq_of_le (by decide)]
  rfl

theorem str (sr base : Reg) (off6 : BitVec 6) : Statement (.str sr base off6) := by
  simp only [Statement, encode, bits]
  repeat rw [BitVec.extractLsb'_append_eq_of_le (by decide)]
  rfl

theorem rti : Statement .rti := rfl

theorem reserved : Statement .reserved := rfl

theorem trap (v : BitVec 8) : Statement (.trap v) := by
  simp only [Statement, encode, bits]
  repeat rw [BitVec.extractLsb'_append_eq_of_le (by decide)]
  rfl

theorem getc : Statement .getc := rfl

theorem out : Statement .out := rfl

theorem puts : Statement .puts := rfl

theorem inChar : Statement .inChar := rfl

theorem putsp : Statement .putsp := rfl

theorem halt : Statement .halt := rfl

end Sys2Proof.Laws.Opcode
end

