-- ==== Sys2Proof/Tests/Slice0.lean ====
section
/-! SUPPORT. The model's own tests. Expected results come from spec/95_test_vectors.md (its vector named in each
comment) or are worked out by hand from the rule named. The witness theorems show, for every obligation with
hypotheses, concrete data that meet them. -/

open Sys2Proof Sys2Proof.Machine

namespace Sys2Proof.Tests

/-! ### Helpers -/

/-- A reset engine with a PC and a memory. -/
def engine (pc : Word) (mem : Memory) : State := { State.reset with pc := pc, mem := mem }

/-- The engine with a register set. -/
def State.set (s : State) (r : Reg) (v : Word) : State := { s with regs := s.regs.set r v }

/-- The engine with N set alone. -/
def State.negative (s : State) : State := { s with flags := ⟨true, false, false⟩ }

/-- The engine with P set alone. -/
def State.positive (s : State) : State := { s with flags := ⟨false, false, true⟩ }

/-- The engine with characters pending. -/
def State.typed (s : State) (cs : List Byte) : State := { s with buffer := cs }

def flagN : Flags := ⟨true, false, false⟩
def flagZ : Flags := ⟨false, true, false⟩
def flagP : Flags := ⟨false, false, true⟩

/-- What a function sees of the next state. -/
def seen {σ α : Type} (f : σ → α) : Host.Outcome σ Fault Refusal → Option α
  | .next t => some (f t)
  | .fault _ => none
  | .refused _ => none

/-- The refusal of an outcome. -/
def stop : Result → Option Refusal
  | .refused r => some r
  | .next _ => none
  | .fault _ => none

/-! ### Well-formedness, decoding, encoding -/

theorem test_wf_refuses_jmp_r7 : (Instr.jmp .r7).wf = false := by decide
theorem test_wf_refuses_trap_of_first_service : (Instr.trap 0x20).wf = false := by decide
theorem test_wf_refuses_trap_of_last_service : (Instr.trap 0x25).wf = false := by decide
theorem test_wf_takes_the_neighbours :
    (Instr.jmp .r6).wf = true ∧ (Instr.trap 0x1F).wf = true ∧ (Instr.trap 0x26).wf = true := by decide

/-- R104, each word written out field by field: opcode, registers, the form bit, immediates. -/
theorem test_decode_operate :
    decode 0b0001_011_001_0_00_010#16 = .addReg .r3 .r1 .r2 ∧
    decode 0b0001_010_001_1_11101#16 = .addImm .r2 .r1 (-3) ∧
    decode 0b0101_011_001_0_00_010#16 = .andReg .r3 .r1 .r2 ∧
    decode 0b0101_000_001_1_00111#16 = .andImm .r0 .r1 7 ∧
    decode 0b1001_100_011_111111#16 = .notReg .r4 .r3 := by decide

/-- R104, as above. -/
theorem test_decode_data_movement :
    decode 0b0010_001_000000010#16 = .ld .r1 2 ∧ decode 0b1010_000_000000001#16 = .ldi .r0 1 ∧
    decode 0b0110_011_010_111111#16 = .ldr .r3 .r2 (-1) ∧ decode 0b1110_000_000000010#16 = .lea .r0 2 ∧
    decode 0b0011_001_000000001#16 = .st .r1 1 ∧ decode 0b1011_000_000000001#16 = .sti .r0 1 ∧
    decode 0b0111_100_101_000011#16 = .str .r4 .r5 3 := by decide

/-- R104, as above. -/
theorem test_decode_control :
    decode 0b0000_101_000000101#16 = .br true false true 5 ∧ decode 0b1100_000_010_000000#16 = .jmp .r2 ∧
    decode 0b1100_000_111_000000#16 = .ret ∧ decode 0b0100_1_10000000000#16 = .jsr (-1024) ∧
    decode 0b0100_0_00_011_000000#16 = .jsrr .r3 ∧ decode 0b1000_000000000000#16 = .rti ∧
    decode 0b1101_000100100011#16 = .reserved := by decide

/-- R104, R231, as above. -/
theorem test_decode_trap :
    decode 0b1111_0000_00100000#16 = .getc ∧ decode 0b1111_0000_00100001#16 = .out ∧
    decode 0b1111_0000_00100010#16 = .puts ∧ decode 0b1111_0000_00100011#16 = .inChar ∧
    decode 0b1111_0000_00100100#16 = .putsp ∧ decode 0b1111_0000_00100101#16 = .halt ∧
    decode 0b1111_0000_00100110#16 = .trap 0x26 := by decide

/-- OP15, CT9, TR17: words with other values in the bits of R109. -/
theorem test_decode_ignored_bits :
    decode 0x98C0#16 = .notReg .r4 .r3 ∧ decode 0xCFFF#16 = .ret ∧ decode 0xFF25#16 = .halt ∧
    decode 0x165A#16 = .addReg .r3 .r1 .r2 := by decide

/-- R104: the canonical words of the assembler. -/
theorem test_encode_canonical :
    encode (.notReg .r4 .r3) = 0x98FF#16 ∧ encode .ret = 0xC1C0#16 ∧ encode .halt = 0xF025#16 ∧
    encode (.br true true true (-1)) = 0x0FFF#16 ∧ encode (.jsrr .r1) = 0x4040#16 := by decide

theorem test_table_word : decodeTableWord 16 0xF025 = some .halt ∧ decodeTableWord 16 65536 = none := by decide

theorem test_with_fetch_word_runs_next :
    seen State.runState (step (State.reset.withFetchWord 16 0xF025)) = some .halted := by decide

/-! ### Operate -/

/-- OP1. -/
theorem test_add_wraps_to_negative :
    seen (fun t => (readReg t .r3, t.flags, t.pc))
      (step (State.set (State.set (engine 0x3000 [(0x3000, 0x1642)]) .r1 0x7FFF) .r2 1)) =
      some (0x8000, flagN, 0x3001) := by decide

/-- OP8. -/
theorem test_add_wraps_to_zero :
    seen (fun t => (readReg t .r0, t.flags)) (step (State.set (engine 0x3000 [(0x3000, 0x1000)]) .r0 0x8000)) =
      some (0, flagZ) := by decide

/-- OP4. -/
theorem test_add_imm_minimum :
    seen (fun t => (readReg t .r1, t.flags)) (step (engine 0x3000 [(0x3000, 0x1270)])) =
      some (0xFFF0, flagN) := by decide

/-- OP6. -/
theorem test_add_imm_unsigned_wrap :
    seen (fun t => (readReg t .r1, t.flags)) (step (State.set (engine 0x3000 [(0x3000, 0x1261)]) .r1 0xFFFF)) =
      some (0, flagZ) := by decide

/-- OP10. -/
theorem test_and_registers :
    seen (fun t => (readReg t .r3, t.flags))
      (step (State.set (State.set (engine 0x3000 [(0x3000, 0x5642)]) .r1 0xF0F0) .r2 0x0FF0)) =
      some (0x00F0, flagP) := by decide

/-- OP11: the immediate -1 is sign-extended. -/
theorem test_and_imm_minus_one :
    seen (fun t => (readReg t .r3, t.flags)) (step (State.set (engine 0x3000 [(0x3000, 0x567F)]) .r1 0xF0F0)) =
      some (0xF0F0, flagN) := by decide

/-- OP13a. -/
theorem test_not : seen (fun t => (readReg t .r4, t.flags))
    (step (State.set (engine 0x3000 [(0x3000, 0x98FF)]) .r3 0x0F0F)) = some (0xF0F0, flagN) := by decide

/-- OP14. -/
theorem test_not_of_ones : seen (fun t => (readReg t .r4, t.flags))
    (step (State.set (engine 0x3000 [(0x3000, 0x98FF)]) .r3 0xFFFF)) = some (0, flagZ) := by decide

/-! ### Data movement -/

/-- DM2. -/
theorem test_ld_minimum_offset :
    seen (fun t => (readReg t .r1, t.flags, t.stats.memReads))
      (step (engine 0x3000 [(0x2F01, 0x0042), (0x3000, 0x2300)])) = some (0x0042, flagP, 1) := by decide

/-- DM3: the address wraps. -/
theorem test_ld_wraps :
    seen (fun t => (readReg t .r0, t.flags, t.pc)) (step (engine 0xFFFF [(1, 7), (0xFFFF, 0x2001)])) =
      some (7, flagP, 0) := by decide

/-- DM5: a load through a pointer to KBDR consumes the character. -/
theorem test_ldi_consumes_at_kbdr :
    seen (fun t => (readReg t .r0, t.flags, t.buffer, t.stats.memReads))
      (step (State.typed (engine 0x3000 [(0x3000, 0xA001), (0x3002, 0xFE02)]) [0x78])) =
      some (0x0078, flagP, [], 2) := by decide

/-- DM4. -/
theorem test_ldi_reads_dsr :
    seen (fun t => (readReg t .r0, t.flags)) (step (engine 0x3000 [(0x3000, 0xA001), (0x3002, 0xFE04)])) =
      some (0x8000, flagN) := by decide

/-- DM9: the address wraps to MCR. -/
theorem test_ldr_wraps_to_mcr :
    seen (fun t => (readReg t .r0, t.flags)) (step (engine 0x3000 [(0x3000, 0x60BE)])) =
      some (0x8000, flagN) := by decide

/-- DM8. -/
theorem test_ldr_reads_kbsr :
    seen (fun t => (readReg t .r0, t.flags, t.buffer))
      (step (State.typed (State.set (engine 0x3000 [(0x3000, 0x6080)]) .r2 0xFE00) [0x41])) =
      some (0x8000, flagN, [0x41]) := by decide

/-- DM10. -/
theorem test_lea : seen (fun t => (readReg t .r0, t.flags, t.stats.memReads)) (step (engine 0x3000 [(0x3000, 0xE002)])) =
    some (0x3003, flagP, 0) := by decide

/-- DM11. -/
theorem test_lea_wraps : seen (fun t => (readReg t .r0, t.flags)) (step (engine 0 [(0, 0xE100)])) =
    some (0xFF01, flagN) := by decide

/-- DM12: a store leaves the flags alone. -/
theorem test_st : seen (fun t => (rawRead t 0x3002, t.flags, t.stats.memWrites))
    (step (State.negative (State.set (engine 0x3000 [(0x3000, 0x3201)]) .r1 0x1234))) =
    some (0x1234, flagN, 1) := by decide

/-- R60: storing 0x0000 leaves no entry. -/
theorem test_st_of_zero_keeps_the_form : seen State.mem (step (engine 0x3000 [(0x3000, 0x3201), (0x3002, 0x1234)])) =
    some [(0x3000, 0x3201)] := by decide

/-- DM16. -/
theorem test_sti_at_ddr :
    seen (fun t => (t.output, t.stats.memReads, t.stats.memWrites))
      (step (State.set (engine 0x3000 [(0x3000, 0xB001), (0x3002, 0xFE06)]) .r0 0x0041)) =
      some ([0x41], 1, 1) := by decide

/-- DM17: the machine-control register halts, and stores nothing. -/
theorem test_sti_at_mcr_halts :
    seen (fun t => (t.runState, t.pc, rawRead t 0xFFFE))
      (step (engine 0x3000 [(0x3000, 0xB001), (0x3002, 0xFFFE)])) = some (.halted, 0x3001, 0) := by decide

/-- DM14: the low 8 bits are emitted, and nothing is stored. -/
theorem test_str_at_ddr :
    seen (fun t => (t.output, rawRead t 0xFE06, t.stats.memWrites))
      (step (State.set (State.set (engine 0x3000 [(0x3000, 0x7946)]) .r4 0x0148) .r5 0xFE00)) =
      some ([0x48], 0, 1) := by decide

/-- DM13. -/
theorem test_str : seen (fun t => rawRead t 0x4003)
    (step (State.set (State.set (engine 0x3000 [(0x3000, 0x7943)]) .r4 0xABCD) .r5 0x4000)) = some 0xABCD := by decide

/-! ### Control -/

/-- CT6. -/
theorem test_br_not_taken : seen (fun t => (t.pc, t.stats.branchesTaken, t.stats.branchesNotTaken))
    (step (engine 0x3000 [(0x3000, 0x0A05)])) = some (0x3001, 0, 1) := by decide

/-- CT5: the target wraps. -/
theorem test_br_wraps : seen (fun t => (t.pc, t.stats.branchesTaken, t.stats.branchesNotTaken))
    (step (State.negative (engine 0 [(0, 0x0FFE)]))) = some (0xFFFF, 1, 0) := by decide

/-- CT7. -/
theorem test_jmp : seen (fun t => (t.pc, t.flags, t.stats.branchesTaken))
    (step (State.set (engine 0x3000 [(0x3000, 0xC080)]) .r2 0x4000)) = some (0x4000, flagZ, 0) := by decide

/-- CT8. -/
theorem test_ret : seen State.pc (step (State.set (engine 0x3000 [(0x3000, 0xC1C0)]) .r7 0x3005)) =
    some 0x3005 := by decide

/-- CT11. -/
theorem test_jsr_minimum_offset : seen (fun t => (t.pc, readReg t .r7, t.flags))
    (step (engine 0x3000 [(0x3000, 0x4C00)])) = some (0x2C01, 0x3001, flagP) := by decide

/-- CT12: the link wraps to zero. -/
theorem test_jsr_link_wraps : seen (fun t => (t.pc, readReg t .r7, t.flags))
    (step (engine 0xFFFF [(0xFFFF, 0x4800)])) = some (0, 0, flagZ) := by decide

/-- CT15: the old R7 is the target. -/
theorem test_jsrr_through_r7 : seen (fun t => (t.pc, readReg t .r7, t.flags))
    (step (State.set (engine 0x3000 [(0x3000, 0x41C0)]) .r7 0x5000)) = some (0x5000, 0x3001, flagP) := by decide

/-- CT16: the flags follow the link. -/
theorem test_jsrr_negative_link : seen (fun t => (t.pc, readReg t .r7, t.flags))
    (step (State.set (engine 0x8000 [(0x8000, 0x40C0)]) .r3 0x1000)) = some (0x1000, 0x8001, flagN) := by decide

/-- CT17. -/
theorem test_rti : seen (fun t => (t.pc, t.flags)) (step (State.negative (engine 0x3000 [(0x3000, 0x8000)]))) =
    some (0x3001, flagN) := by decide

/-- CT18. -/
theorem test_reserved : seen (fun t => (t.pc, t.flags, t.stats.instructions))
    (step (State.negative (engine 0x3000 [(0x3000, 0xD123)]))) = some (0x3001, flagN, 1) := by decide

/-! ### Traps -/

/-- TR1. -/
theorem test_getc : seen (fun t => (readReg t .r0, t.flags, t.pc, t.buffer, t.output))
    (step (State.typed (engine 0x3000 [(0x3000, 0xF020)]) [0x41])) = some (0x0041, flagP, 0x3001, [], []) := by decide

/-- TR4: the rewind wraps. -/
theorem test_getc_blocked : seen (fun t => (t.pc, t.runState, t.stats.instructions, t.flags))
    (step (engine 0xFFFF [(0xFFFF, 0xF020)])) = some (0xFFFF, .waitingForInput, 0, flagZ) := by decide

/-- TR7. -/
theorem test_out : seen (fun t => (t.output, t.flags))
    (step (State.set (engine 0x3000 [(0x3000, 0xF021)]) .r0 0x1248)) = some ([0x48], flagZ) := by decide

/-- TR10: bits 15:8 are ignored; TR9: the empty string. -/
theorem test_puts :
    seen (fun t => (t.output, t.stats.memReads))
      (step (State.set (engine 0x3000 [(0x3000, 0xF022), (0x4000, 0x4141), (0x4001, 0xFF42)]) .r0 0x4000)) =
      some ([0x41, 0x42], 0) ∧
    seen State.output (step (State.set (engine 0x3000 [(0x3000, 0xF022)]) .r0 0x4000)) = some [] := by decide

/-- An engine with no zero word anywhere, and characters at the keyboard without end for one string. -/
def endless : State :=
  { State.reset with mem := (List.range 65536).map fun a => (a, 1#16), buffer := List.replicate 65537 1#8 }

/-- Every word of that memory is 1. -/
theorem read_constant (xs : List Nat) (a : Nat) (h : a ∈ xs) :
    Memory.read (xs.map fun b => (b, 1#16)) a = 1#16 := by
  induction xs with
  | nil => cases h
  | cons x xs ih =>
    simp only [List.map_cons, Memory.read]
    split
    · rfl
    · exact ih ((List.mem_cons.mp h).resolve_left fun e => ‹¬ x = a› e.symm)

/-- PUTS's loop over such a memory never meets the terminator, device registers included. -/
theorem putsLoop_endless (n : Nat) : ∀ (a : Word) (s : State), (∀ b, rawRead s b = 1#16) →
    s.runState = .ready → (∃ k, n < k ∧ s.buffer = List.replicate k 1#8) → putsLoop params n a s = none := by
  induction n with
  | zero => intros; rfl
  | succ n ih =>
    intro a s hm hr ⟨k, hk, hb⟩
    obtain ⟨k, rfl⟩ : ∃ j, k = j + 1 := ⟨k - 1, by omega⟩
    rw [List.replicate_succ] at hb
    have key : (memRead s a).1 ≠ 0#16 ∧ (∀ b, rawRead (memRead s a).2 b = 1#16) ∧
        (memRead s a).2.runState = .ready ∧ ∃ k, n < k ∧ (memRead s a).2.buffer = List.replicate k 1#8 := by
      unfold memRead
      split
      · exact ⟨by simp [kbsrRead, hb], hm, hr, k + 1, by omega, by rw [hb, List.replicate_succ]⟩
      split
      · simp only [kbdrRead, hb]
        exact ⟨by decide, hm, hr, k, by omega, rfl⟩
      split
      · exact ⟨by simp [dsrRead], hm, hr, k + 1, by omega, by rw [hb, List.replicate_succ]⟩
      split
      · exact ⟨by simp [mcrRead, hr], hm, hr, k + 1, by omega, by rw [hb, List.replicate_succ]⟩
      · exact ⟨by simp [hm], hm, hr, k + 1, by omega, by rw [hb, List.replicate_succ]⟩
    obtain ⟨h1, h2, h3, h4⟩ := key
    simp only [putsLoop, if_neg h1]
    exact ih _ _ h2 h3 h4

/-- PUTS is refused by such an engine. -/
theorem puts_endless (s : State) (hm : ∀ b, rawRead s b = 1#16) (hr : s.runState = .ready) (k : Nat) (hk : 65536 < k)
    (hb : s.buffer = List.replicate k 1#8) : exec .puts s = .refused .putsNoTerminator := by
  simp only [exec, execPuts, servicePuts, trapLink, show params.trapLinksR7 = false from rfl, Bool.false_eq_true,
    if_false]
  rw [putsLoop_endless 65536 _ s hm hr ⟨k, hk, hb⟩]

/-- TR21: PUTS is refused where no word of memory is the terminator. -/
theorem test_puts_without_terminator : exec .puts endless = .refused .putsNoTerminator := by
  refine puts_endless endless ?_ ?_ 65537 (by omega) ?_
  · intro b
    have h := read_constant (List.range 65536) b.toNat (List.mem_range.mpr b.isLt)
    simp only [rawRead, endless]
    exact h
  · simp only [endless, State.reset]
  · simp only [endless]

/-- TR12: the step with the prompt "> ". -/
theorem test_in_prompts_and_echoes :
    seen (fun t => (t.output, readReg t .r0, t.flags))
      (stepAt { params with inPrompt := [0x3E, 0x20] } (State.typed (engine 0x3000 [(0x3000, 0xF023)]) [0x37])) =
      some ([0x3E, 0x20, 0x37], 0x0037, flagP) := by decide

/-- TR13: no prompt where IN is blocked. -/
theorem test_in_blocked : seen (fun t => (t.output, t.pc, t.runState)) (step (engine 0x3000 [(0x3000, 0xF023)])) =
    some ([], 0x3000, .waitingForInput) := by decide

/-- TR14. -/
theorem test_putsp : seen State.output
    (step (State.set (engine 0x3000 [(0x3000, 0xF024), (0x4000, 0x6948), (0x4001, 0x0021)]) .r0 0x4000)) =
    some [0x48, 0x69, 0x21] := by decide

/-- TR15: a zero low byte under a non-zero high byte, at the three values of the parameter. -/
theorem test_putsp_zero_low :
    let s := State.set (engine 0x3000 [(0x3000, 0xF024), (0x4000, 0x4100), (0x4001, 0x0042)]) .r0 0x4000
    seen State.output (step s) = some [0x00, 0x41, 0x42] ∧
    seen State.output (stepAt { params with putspZeroLow := .skip } s) = some [0x41, 0x42] ∧
    seen State.output (stepAt { params with putspZeroLow := .stop } s) = some [] := by decide

/-- TR16. -/
theorem test_halt : seen (fun t => (t.runState, t.pc, t.output)) (step (engine 0x3002 [(0x3002, 0xF025)])) =
    some (.halted, 0x3003, []) := by decide

/-- TR18. -/
theorem test_trap_unknown : seen (fun t => (t.pc, t.flags, t.runState))
    (step (State.negative (engine 0x3000 [(0x3000, 0xF026)]))) = some (0x3001, flagN, .ready) := by decide

/-- TR19, TR20. -/
theorem test_trap_unknown_halts_or_is_refused :
    seen State.runState (stepAt { params with unknownTrap := .halt } (engine 0x3000 [(0x3000, 0xF026)])) =
      some .halted ∧
    stop (stepAt { params with unknownTrap := .refuse } (engine 0x3000 [(0x3000, 0xF026)])) =
      some (.unknownTrapVector 0x26) := by decide

/-- TR6 and CT13: the link of a TRAP first, then the character and its flags; a call that leaves the flags. -/
theorem test_step_at_other_link_parameters :
    seen (fun t => (readReg t .r7, readReg t .r0, t.flags))
      (stepAt { params with trapLinksR7 := true } (State.typed (engine 0x3000 [(0x3000, 0xF020)]) [0x41])) =
      some (0x3001, 0x0041, flagP) ∧
    seen (fun t => (readReg t .r7, t.flags, t.pc))
      (stepAt { params with linkSetsCc := false } (State.negative (engine 0x3000 [(0x3000, 0x4803)]))) =
      some (0x3001, flagN, 0x3004) := by decide

/-- R11: fetches and string reads counted, at the true values of the two counting parameters. -/
theorem test_step_at_other_counting_parameters :
    seen (fun t => t.stats.memReads) (stepAt { params with statCountFetch := true, statCountTrapIo := true }
      (State.set (engine 0x3000 [(0x3000, 0xF022), (0x4000, 0x0041)]) .r0 0x4000)) = some 3 := by decide

/-- R11: a run at other parameters; the unnamed vector halts it. -/
theorem test_run_at_other_parameters :
    seen Prod.snd (hostRunAt { params with unknownTrap := .halt } 10 (engine 0x3000 [(0x3000, 0xF026)])) =
      some ⟨true, 1, false⟩ := by decide

/-! ### Fetch, host operations, assembler -/

/-- MM1. -/
theorem test_fetch_at_kbdr : seen (fun t => (t.pc, t.buffer, t.stats.branchesNotTaken))
    (step (State.typed (engine 0xFE02 []) [0x41])) = some (0xFE03, [], 1) := by decide

/-- MM3: MCR is read, not the word stored there. -/
theorem test_fetch_at_mcr : seen (fun t => (t.pc, t.runState)) (step (engine 0xFFFE [(0xFFFE, 0xF025)])) =
    some (0xFFFF, .ready) := by decide

/-- HO1, HO7, and W4 with a budget of three. -/
theorem test_run_results :
    seen Prod.snd (hostStep (halt State.reset)) = some false ∧
    seen Prod.snd (hostRun (-5) (engine 0x3000 [(0x3000, 0x0FFF)])) = some ⟨false, 0, false⟩ ∧
    seen Prod.snd (hostRun 3 (engine 0x3000 [(0x3000, 0x0FFF)])) = some ⟨false, 3, false⟩ ∧
    seen Prod.snd (hostRun 100 (engine 0x3000 [(0x3000, 0xF020)])) = some ⟨false, 0, true⟩ := by decide

/-- HO4, HO6. -/
theorem test_load_and_load_at :
    (hostLoad 0x4000 [0xF025] (halt State.reset)).runState = .ready ∧
    (hostLoad 0x4000 [0xF025] (halt State.reset)).pc = 0x4000 ∧
    (hostLoadAt 0x5000 [0x1234] (halt State.reset)).runState = .halted ∧
    rawRead (hostLoadAt 0x5000 [0x1234] State.reset) 0x5000 = 0x1234 := by decide

/-- W1: words and symbol. -/
theorem test_assemble_hi :
    let o := Asm.assemble .offset
      ".ORIG x3000 \n LEA R0, HELLO \n PUTS \n HALT \n HELLO .STRINGZ \"Hi\" \n .END".toList
    o.origin = 0x3000 ∧ o.words = [0xE002, 0xF022, 0xF025, 0x0048, 0x0069, 0x0000] ∧
    o.symbols = [("HELLO".toList, 0x3003)] ∧ o.errors = [] := by decide

/-- W2: one error on the line, and the masked word; the image is not run. -/
theorem test_assemble_range_error :
    let o := Asm.assemble .offset ".ORIG x3000\nADD R0, R0, #20\n.END".toList
    o.errors = [⟨2, .outOfRange 5⟩] ∧ o.words = [0x1034] ∧ o.image = none := by decide

/-- R133: the text of canonical words, and of one with other values in the bits of R109 (notes/assumptions/5.md). -/
theorem test_disassemble :
    Asm.disassembleText .offset 0x147D 0x3000 = "ADD R2, R1, #-3".toList ∧
    Asm.disassembleText .offset 0x03FD 0x3005 = "BRp #-3".toList ∧
    Asm.disassembleText .offset 0xFF25 0x3005 = "HALT".toList := by decide

/-- R132: an invalid numeral where a label could stand. -/
theorem test_assemble_bad_numeral :
    (Asm.assemble .offset ".ORIG x3000\nLD R0, #1a\n.END".toList).errors = [⟨2, .badNumeral⟩] := by decide

/-! ### Witnesses: data that meet the hypotheses of each obligation, clause by clause -/

/-- An engine with one stored word at a PC, for the witnesses. -/
def sample (w : Word) : State := engine 0x3000 [(0x3000, w)]

theorem witness_DecodeOfEncodeIsTheInstruction :
    (Instr.jmp .r6).WellFormed ∧ (Instr.trap 0xFF).WellFormed ∧ (Instr.addImm .r0 .r7 (-16)).WellFormed := by decide

/-- A word of every opcode, and of both forms of ADD, AND, JMP and JSR, for the clauses on encodings. -/
theorem witness_opcode_clauses :
    bits 0x0E00#16 12 4 = 0x0#4 ∧ (bits 0x103F#16 12 4 = 0x1#4 ∧ bit 0x103F#16 5 = true) ∧
    (bits 0x101F#16 12 4 = 0x1#4 ∧ bit 0x101F#16 5 = false) ∧ bits 0x2100#16 12 4 = 0x2#4 ∧
    bits 0x3100#16 12 4 = 0x3#4 ∧ bits 0x4800#16 11 5 = 0x9#5 ∧ bits 0x47FF#16 11 5 = 0x8#5 ∧
    (bits 0x503F#16 12 4 = 0x5#4 ∧ bit 0x503F#16 5 = true) ∧ bits 0x6020#16 12 4 = 0x6#4 ∧
    bits 0x7020#16 12 4 = 0x7#4 ∧ bits 0x8FFF#16 12 4 = 0x8#4 ∧ bits 0x9000#16 12 4 = 0x9#4 ∧
    bits 0xA100#16 12 4 = 0xA#4 ∧ bits 0xB100#16 12 4 = 0xB#4 ∧
    (bits 0xC1C0#16 12 4 = 0xC#4 ∧ regField 0xC1C0#16 6 = .r7) ∧
    (bits 0xC180#16 12 4 = 0xC#4 ∧ regField 0xC180#16 6 = .r6) ∧ bits 0xDFFF#16 12 4 = 0xD#4 ∧
    bits 0xE100#16 12 4 = 0xE#4 ∧ bits 0xFFFF#16 12 4 = 0xF#4 := by decide

/-- The pointer is read at KBDR, whose character the read consumes. -/
theorem witness_LdiLoadsThroughThePointer :
    memRead (State.typed (engine 0xFE01 []) [0x41]) (word ((0xFE01 : Int) + (1#9).toInt)) =
      (0x0041, engine 0xFE01 []) := by decide

theorem witness_LdiLoadsThroughThePointer_plain :
    memRead (engine 0x3001 [(0x2F01, 0xFE04)]) (word ((0x3001 : Int) + (0x100#9).toInt)) =
      (0xFE04, engine 0x3001 [(0x2F01, 0xFE04)]) := by decide

/-- Also of STR: the memory's form is the one hypothesis. -/
theorem witness_StStoresPcRelative : (engine 0xFFFF [(0, 1), (0xFFFF, 0x3201)]).mem.wf = true := by decide

theorem witness_StiStoresThroughThePointer :
    (engine 0x3001 [(0x3002, 0xFE06)]).mem.wf = true ∧
    memRead (engine 0x3001 [(0x3002, 0xFE06)]) (word ((0x3001 : Int) + (1#9).toInt)) =
      (0xFE06, engine 0x3001 [(0x3002, 0xFE06)]) := by decide

theorem witness_StrStoresBaseOffset : State.reset.mem.wf = true := by decide

theorem witness_KeyboardRegistersShowTheInputBuffer :
    (State.typed (State.set State.reset .r1 0xFE02) [0xFF]).buffer = 0xFF :: [] ∧
    readReg (State.typed (State.set State.reset .r1 0xFE02) [0xFF]) .r1 = 0xFE02 ∧ State.reset.buffer = [] := by decide

theorem witness_StatusRegistersReadReadyAndRunning :
    readReg (State.set State.reset .r1 0xFE04) .r1 = 0xFE04#16 ∧
    (readReg (State.set State.reset .r1 0xFFFE) .r1 = 0xFFFE#16 ∧
      (State.set State.reset .r1 0xFFFE).runState ≠ .halted) := by decide

theorem witness_DisplayWriteEmitsAndStoresNothing :
    baseOffset (State.set State.reset .r1 0xFE26) .r1 (-32) = 0xFE06#16 := by decide

/-- With bit 15 of the stored value zero, and with it one. -/
theorem witness_MachineControlWriteHaltsOnZeroTopBit :
    (baseOffset State.reset .r1 (-2) = 0xFFFE#16 ∧ (readReg State.reset .r0).getLsbD 15 = false) ∧
    (baseOffset (State.set State.reset .r0 0x8000) .r1 (-2) = 0xFFFE#16 ∧
      (readReg (State.set State.reset .r0 0x8000) .r0).getLsbD 15 = true) := by decide

theorem witness_LoadAfterStoreGivesTheValueStored :
    ∃ t, exec (.str .r0 .r1 31) (State.set State.reset .r0 5) = .next t ∧
      (State.set State.reset .r0 5).mem.wf = true ∧
      baseOffset (State.set State.reset .r0 5) .r1 31 ∉ [0xFE00#16, 0xFE02#16, 0xFE04#16, 0xFE06#16, 0xFFFE#16] ∧
      baseOffset t .r2 31 = baseOffset (State.set State.reset .r0 5) .r1 31 :=
  ⟨_, rfl, by decide, by decide, by decide⟩

theorem witness_LoadAfterStoreGivesTheValueStored_device :
    ∃ t, exec (.str .r0 .r1 0) (State.set State.reset .r1 0xFE04) = .next t ∧
      baseOffset (State.set State.reset .r1 0xFE04) .r1 0 ∈ [0xFE00#16, 0xFE02#16, 0xFE04#16] :=
  ⟨_, rfl, by decide⟩

theorem witness_BrBranchesOnTheRequestedFlags :
    (false && flagZ.n || true && flagZ.z || false && flagZ.p) = true ∧
    (true && flagZ.n || false && flagZ.z || true && flagZ.p) = false ∧
    State.reset.flags.exactlyOne = true ∧ (State.negative State.reset).flags.exactlyOne = true := by decide

/-- Also of JSRR: its third clause has the same hypotheses. -/
theorem witness_JsrLinksAndJumps :
    params.linkSetsCc = true ∧ { params with linkSetsCc := false }.linkSetsCc = false := ⟨rfl, rfl⟩

theorem witness_RtiAndTheReservedOpcodeDoNothing :
    (sample 0x8FFF).runState ≠ .halted ∧ fetchIntercepted (sample 0x8FFF).pc = false ∧
    bits (rawRead (sample 0x8FFF) (sample 0x8FFF).pc) 12 4 = 0x8#4 ∧
    bits (rawRead (sample 0xD000) (sample 0xD000).pc) 12 4 = 0xD#4 := by decide

/-- The return right after the call, and one after an instruction that leaves R7. -/
theorem witness_ReturnGoesBackBehindTheCall :
    (∃ t, exec (.jsr 3) (sample 0x4803) = .next t ∧ readReg t .r7 = readReg t .r7) ∧
    (∃ t u, exec (.jsrr .r7) (sample 0x41C0) = .next t ∧ exec (.addImm .r0 .r0 1) t = .next u ∧
      readReg u .r7 = readReg t .r7) := ⟨⟨_, rfl, rfl⟩, _, _, rfl, rfl, by decide⟩

/-- The vectors next to the services, and each value of the parameter. -/
theorem witness_UnknownTrapFollowsItsParameter :
    isServiceVector 0x1F = false ∧ isServiceVector 0x26 = false ∧ params.unknownTrap = .nop ∧
    { params with unknownTrap := .halt }.unknownTrap = .halt ∧
    { params with unknownTrap := .refuse }.unknownTrap = .refuse := ⟨by decide, by decide, rfl, rfl, rfl⟩

/-- Also of IN: a character from the buffer, one from the supplier, and none. -/
theorem witness_GetcReceivesACharacterOrWaits :
    (takeInput (State.typed State.reset [0xFF])).1 = some 0xFF ∧
    (takeInput (hostSetSupplier [some 0x00] State.reset)).1 = some 0x00 ∧ (takeInput State.reset).1 = none ∧
    (takeInput (hostSetSupplier [none] State.reset)).1 = none := by decide

theorem witness_InputComesFromTheBufferThenTheSupplier :
    (Instr.getc = .getc ∨ Instr.getc = .inChar) ∧ (Instr.inChar = .getc ∨ Instr.inChar = .inChar) ∧
    (State.typed (hostSetSupplier [none] State.reset) [0x41]).buffer = 0x41 :: [] ∧
    ((hostSetSupplier [some 0x7A] State.reset).buffer = [] ∧
      (hostSetSupplier [some 0x7A] State.reset).supplier = some (some 0x7A :: [])) ∧
    ((hostSetSupplier [none] State.reset).buffer = [] ∧
      (hostSetSupplier [none] State.reset).supplier = some (none :: [])) ∧
    (State.reset.buffer = [] ∧ State.reset.supplier = none) := by decide

/-- Also of the clauses of GETC and IN about the link, with the input of the witness above. -/
theorem witness_TrapLinkComesBeforeTheService :
    { params with trapLinksR7 := true }.trapLinksR7 = true ∧
    (takeInput (State.typed State.reset [0x41])).1 = some 0x41 ∧ (takeInput State.reset).1 = none :=
  ⟨rfl, by decide, by decide⟩

/-- The engine of the next witnesses: R0 at 0xFFFF, a string of two words from there into 0x0000. -/
def stringEngine : State := State.set (engine 0x3001 [(0, 0x6969), (0xFFFF, 0x4848)]) .r0 0xFFFF

/-- Also of PUTSP: a string across the end of the address space. -/
theorem witness_PutsWritesTheStringItReads :
    ∃ ws u, ReadsString stringEngine (readReg stringEngine .r0) ws u ∧ ws.length < 65536 ∧ ws.length = 2 :=
  ⟨_, _, .more _ _ _ _ (by decide) (.more _ _ _ _ (by decide) (.done _ _ (by decide))), by decide, by decide⟩

theorem witness_StringsInPlainMemoryAreWritten :
    [0x4848#16, 0x6969#16].length < 65536 ∧
    (∀ i, (h : i < [0x4848#16, 0x6969#16].length) → [0x4848#16, 0x6969#16][i] ≠ 0#16 ∧
      rawRead stringEngine (readReg stringEngine .r0 + BitVec.ofNat 16 i) = [0x4848#16, 0x6969#16][i] ∧
      fetchIntercepted (readReg stringEngine .r0 + BitVec.ofNat 16 i) = false) ∧
    rawRead stringEngine (readReg stringEngine .r0 + BitVec.ofNat 16 [0x4848#16, 0x6969#16].length) = 0#16 ∧
    fetchIntercepted (readReg stringEngine .r0 + BitVec.ofNat 16 [0x4848#16, 0x6969#16].length) = false := by
  refine ⟨by decide, ?_, by decide, by decide⟩
  intro i h
  match i, h with
  | 0, _ => simp only [List.getElem_cons_zero]; decide
  | 1, _ => simp only [List.getElem_cons_succ, List.getElem_cons_zero]; decide

theorem witness_StepExecutesTheFetchedInstruction :
    (hostSupply 0x41 State.reset).runState ≠ .halted ∧
    memRead { hostSupply 0x41 State.reset with runState := .ready } (hostSupply 0x41 State.reset).pc =
      (0x0000, hostSupply 0x41 State.reset) ∧ (halt State.reset).runState = .halted := by decide

theorem witness_HostStepReportsStillRunnable :
    (halt State.reset).runState = .halted ∧ (∃ t b, hostStep State.reset = .next (t, b)) ∧
    (waitInput State.reset).runState = .waitingForInput := ⟨rfl, ⟨_, _, rfl⟩, rfl⟩

theorem witness_BlockedTrapStepLeavesOnlyTheWait :
    ((sample 0xF020).runState ≠ .halted ∧ fetchIntercepted (sample 0xF020).pc = false ∧
      decode (rawRead (sample 0xF020) (sample 0xF020).pc) = .getc ∧ (takeInput (sample 0xF020)).1 = none) ∧
    (decode (rawRead (sample 0xF023) (sample 0xF023).pc) = .inChar ∧ (takeInput (sample 0xF023)).1 = none) := by
  decide

theorem witness_SupplyingACharacterCompletesTheBlockedTrap :
    (sample 0xF020).runState ≠ .halted ∧ fetchIntercepted (sample 0xF020).pc = false ∧
    decode (rawRead (sample 0xF020) (sample 0xF020).pc) = .getc ∧ (sample 0xF020).buffer = [] ∧
    (sample 0xF020).supplier = none ∧ ∃ t, step (sample 0xF020) = .next t :=
  ⟨by decide, by decide, by decide, rfl, rfl, _, rfl⟩

/-- The state after the fetch of ST R1, #0 at 0x3000 (DM20). -/
theorem witness_StoredWordIsFetchedByTheNextStep :
    ∃ t, exec (.st .r1 0) (State.set (engine 0x3001 [(0x3000, 0x3200)]) .r1 0x1025) = .next t ∧
      (engine 0x3001 [(0x3000, 0x3200)]).mem.wf = true ∧
      (Instr.st .r1 0).store (State.set (engine 0x3001 [(0x3000, 0x3200)]) .r1 0x1025) = some (0x3001, 0x1025) ∧
      0x3001#16 ∉ [0xFE00#16, 0xFE02#16, 0xFE04#16, 0xFE06#16, 0xFFFE#16] :=
  ⟨_, rfl, by decide, by decide, by decide⟩

theorem witness_FetchAtADeviceRegisterReadsTheDevice :
    ((State.typed (engine 0xFE02 []) [0xFF]).runState ≠ .halted ∧
      (State.typed (engine 0xFE02 []) [0xFF]).pc = 0xFE02#16) ∧
    ((engine 0xFE00 []).runState ≠ .halted ∧ (engine 0xFE00 []).pc = 0xFE00#16 ∧ (engine 0xFE00 []).buffer = []) ∧
    ((State.typed (engine 0xFE00 []) [0xFF]).runState ≠ .halted ∧
      (State.typed (engine 0xFE00 []) [0xFF]).pc = 0xFE00#16 ∧ (State.typed (engine 0xFE00 []) [0xFF]).buffer ≠ []) ∧
    ((engine 0xFE04 []).runState ≠ .halted ∧ (engine 0xFE04 []).pc = 0xFE04#16) ∧
    ((engine 0xFFFE []).runState ≠ .halted ∧ (engine 0xFFFE []).pc = 0xFFFE#16) := by decide

theorem witness_StepKeepsTheInvariant : (sample 0x3201).Inv ∧ ∃ t, step (sample 0x3201) = .next t :=
  ⟨by decide, _, rfl⟩

theorem witness_OnlyTheDestinationRegisterChanges :
    ∃ t, exec (.addImm .r0 .r0 1) State.reset = .next t ∧ (Instr.addImm .r0 .r0 1).destination ≠ some .r7 :=
  ⟨_, rfl, by decide⟩

/-- An instruction without a destination, a blocked trap, and two with a destination. -/
theorem witness_FlagsFollowTheRegisterWritten :
    (∃ t, exec (.st .r0 0) State.reset = .next t ∧ (Instr.st .r0 0).destination = none) ∧
    (∃ t, exec .getc State.reset = .next t ∧ Instr.getc.isInputTrap = true ∧ (takeInput State.reset).1 = none) ∧
    (∃ t, exec .getc (State.typed State.reset [0x41]) = .next t ∧ Instr.getc.destination = some .r0 ∧
      (takeInput (State.typed State.reset [0x41])).1 ≠ none) ∧
    (∃ t, exec (.jsr 0) State.reset = .next t ∧ (Instr.jsr 0).destination = some .r7 ∧
      (Instr.jsr 0).isInputTrap = false) :=
  ⟨⟨_, rfl, rfl⟩, ⟨_, rfl, rfl, rfl⟩, ⟨_, rfl, rfl, by decide⟩, _, rfl, rfl, rfl⟩

/-- Beside a store, and with an instruction that stores nothing. -/
theorem witness_OnlyStoresChangeMemory :
    (∃ t, exec (.st .r0 0) State.reset = .next t ∧
      ∀ ea v, (Instr.st .r0 0).store State.reset = some (ea, v) → 1#16 ≠ ea) ∧
    (∃ t, exec .halt State.reset = .next t ∧ Instr.halt.store State.reset = none) :=
  ⟨⟨_, rfl, by intro ea v h; cases h; decide⟩, _, rfl, rfl⟩

/-- Also of the other statements about any step that answers a next state: of a halted engine, of a blocked trap, of a
step that completes. -/
theorem witness_CountersNeverDecreaseOverAStep :
    (∃ t, step (halt State.reset) = .next t) ∧
    (∃ t, step (sample 0xF020) = .next t ∧ t.runState = .waitingForInput) ∧
    (∃ t, step (sample 0x0FFF) = .next t ∧ t.runState = .ready) := ⟨⟨_, rfl⟩, ⟨_, rfl, rfl⟩, _, rfl, rfl⟩

theorem witness_OutputIsOnlyAppendedTo :
    ∃ t, step (emit (sample 0xF021) 0x41) = .next t ∧ (emit (sample 0xF021) 0x41).output ≠ [] :=
  ⟨_, rfl, by decide⟩

theorem witness_StatisticsAndOutputInfluenceNoStep : ∃ t, step (sample 0xF021) = .next t := ⟨_, rfl⟩

/-- The halt trap, the machine-control register, a blocked trap, and none of them. -/
theorem witness_OnlyTheseEventsHaltOrWait :
    State.reset.runState = .ready ∧ (∃ t, exec .halt State.reset = .next t ∧ t.runState = .halted) ∧
    (∃ t, exec (.str .r0 .r1 (-2)) State.reset = .next t ∧ t.runState = .halted ∧
      (Instr.str .r0 .r1 (-2)).store State.reset = some (0xFFFE#16, 0#16)) ∧
    (∃ t, exec .getc State.reset = .next t ∧ t.runState = .waitingForInput) ∧
    (∃ t, exec .rti State.reset = .next t ∧ t.runState = .ready) :=
  ⟨rfl, ⟨_, rfl, rfl⟩, ⟨_, rfl, by decide, by decide⟩, ⟨_, rfl, rfl⟩, _, rfl, rfl⟩

/-- A word that lands on an earlier one is excluded: here none does, from 0xFFFF into 0x0000. -/
theorem witness_LoadInstallsTheImage :
    State.reset.mem.wf = true ∧ (∀ j, 0 < j → j < [1#16, 2#16].length → BitVec.ofNat 16 j ≠ BitVec.ofNat 16 0) ∧
    (∀ i < [1#16, 2#16].length, 5#16 ≠ 0xFFFF#16 + BitVec.ofNat 16 i) := by
  refine ⟨by decide, ?_, ?_⟩
  · intro j h h'
    match j, h, h' with
    | 1, _, _ => decide
  · intro i h
    match i, h with
    | 0, _ => decide
    | 1, _ => decide

theorem witness_SupplyAppendsAndWakes :
    (halt State.reset).runState = .halted ∧ (waitInput State.reset).runState ≠ .halted := by decide

theorem witness_RunReturnsWhatEndedIt :
    (∃ t r, hostRun 2 State.reset = .next (t, r) ∧ r.completed = false ∧ r.waitingForInput = false) ∧
    (0 : Int) ≤ 0 ∧ (-5 : Int) ≤ 0 ∧ (halt State.reset).runState = .halted :=
  ⟨⟨_, _, rfl, rfl, rfl⟩, by decide, by decide, rfl⟩

/-- The four cases: halted, no budget, a first step that blocks, a first step that does not. -/
theorem witness_RunIsStepThenRun :
    (halt State.reset).runState = .halted ∧ ((0 : Int) ≤ 0 ∧ State.reset.runState ≠ .halted) ∧
    (∃ t, (0 : Int) < 1 ∧ (sample 0xF020).runState ≠ .halted ∧ step (sample 0xF020) = .next t ∧
      t.runState = .waitingForInput) ∧
    (∃ t u r, State.reset.runState ≠ .halted ∧ step State.reset = .next t ∧ t.runState ≠ .waitingForInput ∧
      hostRun (1 : Nat) t = .next (u, r)) :=
  ⟨rfl, by decide, ⟨_, by decide, by decide, rfl, rfl⟩, _, _, _, by decide, rfl, by decide, rfl⟩

/-- The last offsets in both directions, at both widths. -/
theorem witness_AssembledOffsetReachesTheLabel :
    Asm.find [("L".toList, 0x3100#16)] "L".toList = some 0x3100#16 ∧
    (engine 0x3001 []).pc = 0x3000#16 + 1#16 ∧
    (Asm.offsetField .offset [("L".toList, 0x3100#16)] 0x3000 9 (.label "L".toList)).2 = [] ∧
    (Asm.offsetField .offset [("L".toList, 0x2F01#16)] 0x3000 9 (.label "L".toList)).2 = [] ∧
    (Asm.offsetField .offset [("L".toList, 0x3101#16)] 0x3000 9 (.label "L".toList)).2 = [.outOfRange 9] ∧
    (Asm.offsetField .offset [("L".toList, 0x3400#16)] 0x3000 11 (.label "L".toList)).2 = [] ∧
    (0 < 9 ∧ 9 ≤ 16) ∧ (0 < 11 ∧ 11 ≤ 16) := by decide

theorem witness_DisassemblyReassembles :
    0xC1C0#16 = encode (.jmp .r7) ∧ 0x0005#16 = encode (.br false false false 5) := by decide

end Sys2Proof.Tests
end

/-! PROOFS of the state's whole-machine rules (spec/10_state.md): the invariant, the frames of the registers, the flags,
the output and the counters, and where an input trap's character comes from. -/

namespace Sys2Proof.Machine

/-! ### One step -/

/-- Whatever a step answers: a halted engine's own state, or the fetched instruction executed after its fetch. -/
theorem step_next_cases {s t : State} (h : step s = .next t) :
    (s.runState = .halted ∧ t = s) ∨
    (s.runState ≠ .halted ∧ exec (decode (fetch params s).1) (fetch params s).2 = .next t) := by
  unfold step at h
  split at h
  next hs => cases h; exact .inl ⟨hs, rfl⟩
  next hs => exact .inr ⟨hs, h⟩

@[simp] theorem fetch_flags (s : State) : (fetch params s).2.flags = s.flags := by rw [fetch_state]
@[simp] theorem fetch_runState (s : State) : (fetch params s).2.runState = .ready := by rw [fetch_state]
@[simp] theorem fetch_output (s : State) : (fetch params s).2.output = s.output := by rw [fetch_state]
@[simp] theorem fetch_mem (s : State) : (fetch params s).2.mem = s.mem := by rw [fetch_state]
@[simp] theorem fetch_stats (s : State) :
    (fetch params s).2.stats = { s.stats with instructions := s.stats.instructions + 1 } := by rw [fetch_state]

/-! ### The invariant -/

/-- Every effect of an instruction keeps the invariant: new flags are those of a value, and memory changes by a write
through the intercept alone. -/
theorem Effect.keeps_inv {i : Instr} {s t : State} (h : Effect i s t) (hs : s.Inv) : t.Inv := by
  obtain ⟨hf, hm⟩ := hs
  cases h with
  | result dr v pc st b _ => exact ⟨flagsOf_valid v, hm⟩
  | received c o _ _ => exact ⟨flagsOf_valid (zext c), by simpa using hm⟩
  | blocked _ _ => exact ⟨by simpa using hf, by simpa using hm⟩
  | wrote a v st b _ => exact ⟨by simpa using hf, memWrite_wf hm a v⟩
  | control pc st _ => exact ⟨hf, hm⟩
  | console o b _ => exact ⟨hf, hm⟩
  | halted _ => exact ⟨hf, hm⟩

/-- Settles O44: the fetch leaves flags and memory alone, and every effect of the instruction keeps the invariant. -/
theorem stepKeepsTheInvariant : Obligations.StepKeepsTheInvariant := by
  intro s t hs h
  obtain ⟨-, rfl⟩ | ⟨-, h⟩ := step_next_cases h
  · exact hs
  · exact (exec_effect h).keeps_inv (by simpa [State.Inv] using hs)

/-- Settles O45: reset's flags are Z alone and its memory is empty, whatever the supplier. -/
theorem resetSatisfiesTheInvariant : Obligations.ResetSatisfiesTheInvariant :=
  ⟨⟨rfl, State.reset_mem_wf⟩, fun _ => ⟨rfl, State.reset_mem_wf⟩⟩

/-! ### Registers and flags -/

/-- Settles O46, by the effects of an instruction: only a result and a received character write a register, and both
write the destination. -/
theorem onlyTheDestinationRegisterChanges : Obligations.OnlyTheDestinationRegisterChanges := by
  intro i s t h r hr
  cases exec_effect h with
  | result dr v pc st b hi => exact RegFile.get_set_ne _ _ fun e => hr (by rw [hi.dest, e])
  | received c o hi _ => exact RegFile.get_set_ne _ _ fun e => hr (by rw [hi.dest, e])
  | blocked _ _ => simp [readReg]
  | wrote a v st b _ => simp [readReg]
  | control pc st _ => rfl
  | console o b _ => rfl
  | halted _ => rfl

/-- Settles O47, by the effects of an instruction: the flags change with the destination register, from the value
written, or not at all. -/
theorem flagsFollowTheRegisterWritten : Obligations.FlagsFollowTheRegisterWritten := by
  intro i s t h
  cases exec_effect h with
  | result dr v pc st b hi =>
    refine ⟨by simp [hi.dest], by simp [hi.inputTrap], ?_⟩
    rintro _ hd -
    obtain rfl : dr = _ := by simpa [hi.dest] using hd
    simpa [readReg] using flagsOf_describe v
  | received c o hi hc =>
    refine ⟨by simp [hi.dest], by simp [hc], ?_⟩
    rintro _ hd -
    obtain rfl : Reg.r0 = _ := by simpa [hi.dest] using hd
    simpa [readReg] using flagsOf_describe (zext c)
  | blocked hi hc => exact ⟨by simp, by simp, fun _ _ hn => absurd hc (hn hi.inputTrap)⟩
  | wrote a v st b hi => exact ⟨by simp, by simp, by simp [hi.dest]⟩
  | control pc st hi => exact ⟨fun _ => rfl, fun _ _ => rfl, by simp [hi.dest]⟩
  | console o b hi => exact ⟨fun _ => rfl, fun _ _ => rfl, by simp [hi.dest]⟩
  | halted hi => exact ⟨fun _ => rfl, fun _ _ => rfl, by simp [hi.dest]⟩

/-! ### Input -/

theorem takeInput_of_buffer {s : State} {c : Byte} {rest : List Byte} (h : s.buffer = c :: rest) :
    takeInput s = (some c, { s with buffer := rest }) := by
  simp [takeInput, h]

theorem takeInput_of_answer {s : State} {r : Option Byte} {answers : List (Option Byte)} (hb : s.buffer = [])
    (hs : s.supplier = some (r :: answers)) :
    takeInput s = (r, { s with supplier := some answers, supplierCalls := s.supplierCalls + 1 }) := by
  simp [takeInput, callSupplier, hb, hs]

theorem takeInput_of_no_supplier {s : State} (hb : s.buffer = []) (hs : s.supplier = none) :
    takeInput s = (none, s) := by
  simp [takeInput, hb, hs]

/-- GETC and IN with a character taken: it is received in the state `take_input()` left, with the output IN adds. -/
theorem exec_inputTrap_of_taken {i : Instr} (hi : i = .getc ∨ i = .inChar) {s s1 : State} {c : Byte}
    (h : takeInput s = (some c, s1)) : ∃ o, exec i s = .next (receiveChar { s1 with output := o } c) := by
  obtain rfl | rfl := hi
  · exact ⟨s1.output, by simp [exec, execGetc, serviceGetc, h, trapLink, show params.trapLinksR7 = false from rfl]⟩
  · refine ⟨s1.output ++ params.inPrompt ++ [c], ?_⟩
    simp [exec, execIn, serviceIn, h, trapLink, show params.trapLinksR7 = false from rfl, emitAll_eq, emit]

/-- GETC and IN without a character wait. -/
theorem exec_inputTrap_of_none {i : Instr} (hi : i = .getc ∨ i = .inChar) {s s1 : State}
    (h : takeInput s = (none, s1)) : exec i s = .next (waitInput s1) := by
  obtain rfl | rfl := hi
  · simp [exec, execGetc, serviceGetc, h]
  · simp [exec, execIn, serviceIn, h]

@[simp] theorem readReg_receiveChar (s : State) (c : Byte) : readReg (receiveChar s c) .r0 = c.setWidth 16 :=
  readReg_writeResult_same s .r0 (zext c)

/-- Settles O32, by the cases of `take_input()`: the buffer's front, the supplier's answer, its refusal, no supplier. -/
theorem inputComesFromTheBufferThenTheSupplier : Obligations.InputComesFromTheBufferThenTheSupplier := by
  intro i s hi
  refine ⟨?_, ?_, ?_, ?_⟩
  · intro c rest hb
    obtain ⟨o, e⟩ := exec_inputTrap_of_taken hi (takeInput_of_buffer hb)
    exact ⟨_, e, by simp, rfl, rfl, rfl⟩
  · intro c answers hb hs
    obtain ⟨o, e⟩ := exec_inputTrap_of_taken hi (takeInput_of_answer hb hs)
    exact ⟨_, e, by simp, hb, rfl, rfl⟩
  · intro answers hb hs
    exact ⟨_, exec_inputTrap_of_none hi (takeInput_of_answer hb hs), rfl, rfl, rfl⟩
  · intro hb hs
    exact ⟨_, exec_inputTrap_of_none hi (takeInput_of_no_supplier hb hs), rfl, hs, rfl⟩

/-! ### Output -/

theorem memWrite_output_prefix (s : State) (a v : Word) : s.output <+: (memWrite s a v).output := by
  obtain ⟨-, e⟩ | ⟨-, -, e⟩ | ⟨-, -, e⟩ | ⟨-, -, e⟩ := memWrite_cases s a v <;> simp [e]

/-- Every effect of an instruction appends to the output at most. -/
theorem Effect.output_prefix {i : Instr} {s t : State} (h : Effect i s t) : s.output <+: t.output := by
  cases h with
  | result dr v pc st b _ => exact List.prefix_rfl
  | received c o _ _ => exact List.prefix_append _ _
  | blocked _ _ => simp
  | wrote a v st b _ => exact memWrite_output_prefix s a v
  | control pc st _ => exact List.prefix_rfl
  | console o b _ => exact List.prefix_append _ _
  | halted _ => exact List.prefix_rfl

/-- Settles O49: the fetch leaves the output alone, and every effect of the instruction appends at most. -/
theorem outputIsOnlyAppendedTo : Obligations.OutputIsOnlyAppendedTo := by
  intro s t h
  obtain ⟨-, rfl⟩ | ⟨-, h⟩ := step_next_cases h
  · exact List.prefix_rfl
  · simpa using (exec_effect h).output_prefix

/-! ### The counters -/

/-- What executing an instruction that completes does to the statistics: no counter decreases, and the instruction
counter, which the fetch advances, stays. -/
structure StatsAdvance (a b : Stats) : Prop where
  memReads : a.memReads ≤ b.memReads
  memWrites : a.memWrites ≤ b.memWrites
  branchesTaken : a.branchesTaken ≤ b.branchesTaken
  branchesNotTaken : a.branchesNotTaken ≤ b.branchesNotTaken
  instructions : b.instructions = a.instructions

theorem StatsAdvance.refl (a : Stats) : StatsAdvance a a := ⟨le_rfl, le_rfl, le_rfl, le_rfl, rfl⟩

theorem StatsAdvance.of_eq {a b : Stats} (h : b = a) : StatsAdvance a b := h ▸ .refl b

theorem StatsAdvance.trans {a b c : Stats} (h : StatsAdvance a b) (k : StatsAdvance b c) : StatsAdvance a c where
  memReads := h.memReads.trans k.memReads
  memWrites := h.memWrites.trans k.memWrites
  branchesTaken := h.branchesTaken.trans k.branchesTaken
  branchesNotTaken := h.branchesNotTaken.trans k.branchesNotTaken
  instructions := k.instructions.trans h.instructions

theorem countReads_advance (s : State) (n : Nat) : StatsAdvance s.stats (countReads s n).stats :=
  ⟨Nat.le_add_right _ _, le_rfl, le_rfl, le_rfl, rfl⟩

theorem countWrite_advance (s : State) : StatsAdvance s.stats (countWrite s).stats :=
  ⟨le_rfl, Nat.le_succ _, le_rfl, le_rfl, rfl⟩

theorem countTaken_advance (s : State) : StatsAdvance s.stats (countTaken s).stats :=
  ⟨le_rfl, le_rfl, Nat.le_succ _, le_rfl, rfl⟩

theorem countNotTaken_advance (s : State) : StatsAdvance s.stats (countNotTaken s).stats :=
  ⟨le_rfl, le_rfl, le_rfl, Nat.le_succ _, rfl⟩

theorem loadFrom_advance (s : State) (dr : Reg) (ea : Word) : StatsAdvance s.stats (loadFrom s dr ea).stats := by
  simpa [loadFrom] using countReads_advance s 1

theorem storeTo_advance (s : State) (ea v : Word) : StatsAdvance s.stats (storeTo s ea v).stats := by
  simpa [storeTo] using countWrite_advance s

theorem readPointer_advance (s : State) (off9 : BitVec 9) : StatsAdvance s.stats (readPointer s off9).2.stats := by
  simpa [readPointer] using countReads_advance s 1

/-- An input trap that completes leaves the statistics; the one other outcome is the wait. -/
theorem Effect.inputTrap_stats {i : Instr} {s t : State} (h : Effect i s t) (hi : i.isInputTrap = true) :
    t = waitInput (takeInput s).2 ∨ t.stats = s.stats := by
  cases h with
  | received c o _ _ => exact .inr (takeInput_stats s)
  | blocked _ _ => exact .inl rfl
  | result _ _ _ _ _ hs | wrote _ _ _ _ hs | control _ _ hs | console _ _ hs | halted hs =>
    exact absurd hi (by simp [hs.inputTrap])

/-- The string loops leave the statistics: at the spec values their reads are not counted (R241). -/
theorem putsLoop_stats {n : Nat} {a : Word} {s u : State} (h : putsLoop params n a s = some u) :
    u.stats = s.stats := by
  obtain ⟨ws, t, hl, hr⟩ := readsString_of_putsLoop h
  rw [putsLoop_of_readsString hr hl] at h
  cases h
  rw [hr.state]

theorem putspLoop_stats {n : Nat} {a : Word} {s u : State} (h : putspLoop params n a s = some u) :
    u.stats = s.stats := by
  obtain ⟨ws, t, hl, hr⟩ := readsString_of_putspLoop h
  rw [putspLoop_of_readsString hr hl] at h
  cases h
  rw [hr.state]

theorem exec_puts_stats {s t : State} (h : exec .puts s = .next t) : t.stats = s.stats := by
  simp only [exec, execPuts, servicePuts] at h
  split at h <;> cases h
  next hp => exact putsLoop_stats hp

theorem exec_putsp_stats {s t : State} (h : exec .putsp s = .next t) : t.stats = s.stats := by
  simp only [exec, execPutsp, servicePutsp] at h
  split at h <;> cases h
  next hp => exact putspLoop_stats hp

/-- An executed trap leaves the statistics, or it waits for input. -/
theorem exec_trap_stats {v : BitVec 8} {s t : State} (h : exec (.trap v) s = .next t) :
    t = waitInput (takeInput s).2 ∨ t.stats = s.stats := by
  obtain ⟨rfl, -⟩ | ⟨-, e⟩ | ⟨-, e⟩ | ⟨rfl, -⟩ | ⟨-, e⟩ | ⟨-, e⟩ | ⟨-, e⟩ := exec_trap_cases v s
  · exact (exec_effect h).inputTrap_stats rfl
  · rw [e] at h; cases h; exact .inr rfl
  · exact .inr (exec_puts_stats (e ▸ h))
  · exact (exec_effect h).inputTrap_stats rfl
  · exact .inr (exec_putsp_stats (e ▸ h))
  · rw [e] at h; cases h; exact .inr rfl
  · rw [e] at h; cases h; exact .inr rfl

/-- Executing an instruction makes a blocked input trap wait; otherwise the counters advance and no instruction is
uncounted. -/
theorem exec_stats {i : Instr} {s t : State} (h : exec i s = .next t) :
    t = waitInput (takeInput s).2 ∨ StatsAdvance s.stats t.stats := by
  cases i with
  | addReg | addImm | andReg | andImm | notReg | lea | jmp | ret | jsr | jsrr | rti | reserved | out | halt =>
    cases h; exact .inr (.refl _)
  | ld | ldr => cases h; exact .inr (loadFrom_advance _ _ _)
  | ldi dr off9 => cases h; exact .inr ((readPointer_advance s off9).trans (loadFrom_advance _ _ _))
  | st | str => cases h; exact .inr (storeTo_advance _ _ _)
  | sti sr off9 => cases h; exact .inr ((readPointer_advance s off9).trans (storeTo_advance _ _ _))
  | br n z p off9 =>
    simp only [exec, execBr] at h
    split at h <;> cases h
    · exact .inr (countTaken_advance (setPc s _))
    · exact .inr (countNotTaken_advance s)
  | getc | inChar => exact ((exec_effect h).inputTrap_stats rfl).imp_right .of_eq
  | puts => exact .inr (.of_eq (exec_puts_stats h))
  | putsp => exact .inr (.of_eq (exec_putsp_stats h))
  | trap v => exact (exec_trap_stats h).imp_right .of_eq

theorem memWrite_not_waiting {s : State} (h : s.runState ≠ .waitingForInput) (a v : Word) :
    (memWrite s a v).runState ≠ .waitingForInput := by
  obtain ⟨-, e⟩ | ⟨-, -, e⟩ | ⟨-, -, e⟩ | ⟨-, -, e⟩ := memWrite_cases s a v <;> simp [e, h]

/-- Only a blocked input trap makes an engine wait that was not waiting. -/
theorem Effect.blocked_of_waiting {i : Instr} {s t : State} (h : Effect i s t) (hs : s.runState ≠ .waitingForInput)
    (ht : t.runState = .waitingForInput) : t = waitInput (takeInput s).2 := by
  cases h with
  | blocked _ _ => rfl
  | result _ _ _ _ _ _ | control _ _ _ | console _ _ _ => exact absurd ht hs
  | received c o _ _ => exact absurd ((takeInput_runState s).symm.trans ht) hs
  | wrote a v st b _ => exact absurd ht (memWrite_not_waiting hs a v)
  | halted _ => cases ht

/-- Settles O50: the fetch counts the instruction; a blocked trap uncounts it, and nothing else decreases a counter. -/
theorem countersNeverDecreaseOverAStep : Obligations.CountersNeverDecreaseOverAStep := by
  intro s t h
  obtain ⟨hs, rfl⟩ | ⟨hs, h⟩ := step_next_cases h
  · simp [hs]
  by_cases ht : t.runState = .waitingForInput
  · obtain rfl := (exec_effect h).blocked_of_waiting (by simp) ht
    simp
  · obtain rfl | k := exec_stats h
    · exact absurd (waitInput_runState _) ht
    · rw [fetch_stats] at k
      exact ⟨k.memReads, k.memWrites, k.branchesTaken, k.branchesNotTaken, by simp [hs, ht, k.instructions]⟩

end Sys2Proof.Machine

/-! PROOFS of memory and its device registers (spec/20_memory.md): what the intercept reads and writes at each device
register, loads after stores, fetches at device registers and of stored words, and the frame of the memory array. -/

namespace Sys2Proof.Machine

/-! ### Reads through the intercept, by address -/

theorem memRead_kbsr (s : State) : memRead s 0xFE00#16 = (if s.buffer = [] then 0x0000#16 else 0x8000#16, s) := rfl

/-- An empty buffer reads as the character 0x00, and its tail is empty: one equation for both cases of R70. -/
theorem memRead_kbdr (s : State) :
    memRead s 0xFE02#16 = (zext (s.buffer.headD 0#8), { s with buffer := s.buffer.tail }) := by
  obtain ⟨_, _, _, _, _, buffer, _, _, _, _⟩ := s
  cases buffer <;> rfl

/-- A state with no character pending is the one left by taking its front. -/
theorem with_buffer_tail_of_empty {s : State} (h : s.buffer = []) : { s with buffer := s.buffer.tail } = s := by
  rw [h, List.tail_nil, ← h]

theorem memRead_dsr (s : State) : memRead s 0xFE04#16 = (0x8000#16, s) := rfl

theorem memRead_mcr (s : State) :
    memRead s 0xFFFE#16 = (if s.runState = .halted then 0x0000#16 else 0x8000#16, s) := rfl

theorem memRead_no_device (s : State) {a : Word}
    (h : a ∉ [0xFE00#16, 0xFE02#16, 0xFE04#16, 0xFE06#16, 0xFFFE#16]) : memRead s a = (rawRead s a, s) := by
  simp only [List.mem_cons, List.not_mem_nil, or_false, not_or] at h
  obtain ⟨hkbsr, hkbdr, hdsr, -, hmcr⟩ := h
  exact memRead_plain s (by simp [fetchIntercepted, kbsrAddr, kbdrAddr, dsrAddr, mcrAddr, hkbsr, hkbdr, hdsr, hmcr])

/-! ### Writes through the intercept, by address -/

theorem memWrite_ddr (s : State) (v : Word) : memWrite s 0xFE06#16 v = emit s (lowByte v) := rfl

theorem memWrite_mcr (s : State) (v : Word) : memWrite s 0xFFFE#16 v = if v.getLsbD 15 then s else halt s := by
  rw [← show v.msb = v.getLsbD 15 from BitVec.msb_eq_getLsbD_last v]
  rfl

theorem memWrite_stored (s : State) {a : Word} (v : Word) (hddr : a ≠ 0xFE06#16) (hmcr : a ≠ 0xFFFE#16) :
    memWrite s a v = rawWrite s a v := by
  simp [memWrite, ddrAddr, mcrAddr, hddr, hmcr]

/-! ### Loads and stores at a base+offset address -/

theorem exec_ldr (dr base : Reg) (off6 : BitVec 6) (s : State) :
    exec (.ldr dr base off6) s = .next (loadFrom s dr (baseOffset s base off6)) := rfl

theorem exec_str (sr base : Reg) (off6 : BitVec 6) (s : State) :
    exec (.str sr base off6) s = .next (storeTo s (baseOffset s base off6) (readReg s sr)) := rfl

@[simp] theorem baseOffset_zero (s : State) (base : Reg) : baseOffset s base 0 = readReg s base :=
  BitVec.add_zero _

theorem readReg_loadFrom_same (s : State) (dr : Reg) (ea : Word) :
    readReg (loadFrom s dr ea) dr = (memRead s ea).1 := readReg_writeResult_same _ dr _

@[simp] theorem loadFrom_flags (s : State) (dr : Reg) (ea : Word) :
    (loadFrom s dr ea).flags = flagsOf (memRead s ea).1 := rfl

@[simp] theorem loadFrom_buffer (s : State) (dr : Reg) (ea : Word) :
    (loadFrom s dr ea).buffer = (memRead s ea).2.buffer := rfl

@[simp] theorem loadFrom_supplier (s : State) (dr : Reg) (ea : Word) :
    (loadFrom s dr ea).supplier = s.supplier := memRead_supplier s ea

@[simp] theorem loadFrom_supplierCalls (s : State) (dr : Reg) (ea : Word) :
    (loadFrom s dr ea).supplierCalls = s.supplierCalls := memRead_supplierCalls s ea

@[simp] theorem storeTo_buffer (s : State) (ea v : Word) : (storeTo s ea v).buffer = s.buffer := memWrite_buffer s ea v

theorem storeTo_onlyStore (s : State) (ea v : Word) : OnlyStore s (storeTo s ea v) where
  regs _ := by simp [readReg, storeTo]
  pc := memWrite_pc s ea v
  flags := memWrite_flags s ea v
  supplier := memWrite_supplier s ea v
  supplierCalls := memWrite_supplierCalls s ea v

/-- In a canonical memory a store puts its value in the array, but at the two registers that store nothing. -/
theorem rawRead_storeTo_same {s : State} (h : s.mem.wf = true) {ea : Word} (v : Word) (hddr : ea ≠ 0xFE06#16)
    (hmcr : ea ≠ 0xFFFE#16) : rawRead (storeTo s ea v) ea = v :=
  (memWrite_wrote h ea v).stored hddr hmcr

/-! ### The device registers -/

/-- Settles O17: the reads are the intercept's equations at KBSR and KBDR, and LDR is a load from the base register's
address. -/
theorem keyboardRegistersShowTheInputBuffer : Obligations.KeyboardRegistersShowTheInputBuffer := by
  refine ⟨memRead_kbsr, ?_, ?_, ?_⟩
  · intro s c rest hb
    simp [memRead_kbdr, hb, zext]
  · intro s hb
    rw [memRead_kbdr, with_buffer_tail_of_empty hb, hb]
    rfl
  · intro dr base s c rest hbase hb
    refine ⟨_, exec_ldr dr base 0 s, ?_⟩
    rw [baseOffset_zero, hbase]
    have hbuffer : (loadFrom s dr 0xFE02#16).buffer = rest := by simp [memRead_kbdr, hb]
    refine ⟨?_, hbuffer, loadFrom_supplier .., loadFrom_supplierCalls .., ?_⟩
    · rw [readReg_loadFrom_same, memRead_kbdr, hb]
      exact zext_toNat c
    · rw [memRead_kbsr, hbuffer]
      simp

/-- Settles O18: the reads are the intercept's equations at DSR and MCR; a load of either gives 0x8000 in an engine that
runs, and the flags are those of that word. -/
theorem statusRegistersReadReadyAndRunning : Obligations.StatusRegistersReadReadyAndRunning := by
  refine ⟨memRead_dsr, memRead_mcr, ?_⟩
  intro dr base s h
  have hread : (memRead s (readReg s base)).1 = 0x8000#16 := by
    obtain hdsr | ⟨hmcr, hrun⟩ := h
    · rw [hdsr, memRead_dsr]
    · rw [hmcr, memRead_mcr, if_neg hrun]
  refine ⟨_, exec_ldr dr base 0 s, ?_, ?_⟩
  · rw [readReg_loadFrom_same, baseOffset_zero, hread]
  · rw [loadFrom_flags, baseOffset_zero, hread]
    decide

/-- Settles O19: a write at DDR is the emission of the low byte. -/
theorem displayWriteEmitsAndStoresNothing : Obligations.DisplayWriteEmitsAndStoresNothing := by
  intro sr base off6 s ha
  refine ⟨_, exec_str sr base off6 s, ?_⟩
  rw [ha]
  have hwrite : storeTo s 0xFE06#16 (readReg s sr) = countWrite (emit s (lowByte (readReg s sr))) := rfl
  exact ⟨by simp [hwrite, lowByte], fun a => rawRead_congr (by simp [hwrite]) a, by simp [hwrite], storeTo_buffer ..,
    storeTo_onlyStore ..⟩

/-- Settles O20: a write at MCR halts or does nothing, by bit 15, and a halted engine's step is idle. -/
theorem machineControlWriteHaltsOnZeroTopBit : Obligations.MachineControlWriteHaltsOnZeroTopBit := by
  intro sr base off6 s ha
  refine ⟨_, exec_str sr base off6 s, ?_⟩
  rw [ha]
  have honly := storeTo_onlyStore s 0xFFFE#16 (readReg s sr)
  have hbuffer := storeTo_buffer s 0xFFFE#16 (readReg s sr)
  cases hv : (readReg s sr).getLsbD 15 with
  | true =>
    have hwrite : storeTo s 0xFFFE#16 (readReg s sr) = countWrite s := by rw [storeTo, memWrite_mcr, hv]; rfl
    rw [hwrite] at honly hbuffer ⊢
    exact ⟨rfl, rfl, fun _ => rfl, rfl, hbuffer, honly, by simp⟩
  | false =>
    have hwrite : storeTo s 0xFFFE#16 (readReg s sr) = countWrite (halt s) := by rw [storeTo, memWrite_mcr, hv]; rfl
    rw [hwrite] at honly hbuffer ⊢
    exact ⟨rfl, rfl, fun _ => rfl, rfl, hbuffer, honly, fun _ => if_pos rfl⟩

/-! ### Loads and fetches after stores -/

/-- What a program reads at KBSR, KBDR and DSR is no matter of the array. -/
theorem memRead_storeTo_input_device (s : State) {a : Word} (v : Word)
    (h : a ∈ [0xFE00#16, 0xFE02#16, 0xFE04#16]) : (memRead (storeTo s a v) a).1 = (memRead s a).1 := by
  simp only [List.mem_cons, List.not_mem_nil, or_false] at h
  obtain rfl | rfl | rfl := h
  · simp only [memRead_kbsr, storeTo_buffer]
  · simp only [memRead_kbdr, storeTo_buffer]
  · simp only [memRead_dsr]

/-- Settles O21: at a plain address store and load are a raw write and a raw read of one word; at KBSR, KBDR and DSR the
write is raw and the read is the device's. -/
theorem loadAfterStoreGivesTheValueStored : Obligations.LoadAfterStoreGivesTheValueStored := by
  constructor
  · intro sr dr b1 b2 o1 o2 s t hwf ha hst hsame
    rw [exec_str] at hst
    cases hst
    refine ⟨_, exec_ldr dr b2 o2 _, ?_⟩
    rw [readReg_loadFrom_same, hsame, memRead_no_device _ ha]
    exact rawRead_storeTo_same hwf _ (fun e => ha (by simp [e])) (fun e => ha (by simp [e]))
  · intro sr b1 o1 s t hwf ha hst
    rw [exec_str] at hst
    cases hst
    refine ⟨rawRead_storeTo_same hwf _ ?_ ?_, memRead_storeTo_input_device s _ ha⟩
    · intro e; simp [e] at ha
    · intro e; simp [e] at ha

/-- An instruction that stores leads to the state of its write, but for what an indirect pointer's read consumes and the
statistics. -/
theorem exec_of_store {i : Instr} {s t : State} {a v : Word} (h : exec i s = .next t) (hi : i.store s = some (a, v)) :
    ∃ st b, t = { memWrite s a v with stats := st, buffer := b } := by
  cases exec_effect h with
  | wrote a' v' st b hs =>
    obtain ⟨rfl, rfl⟩ : a' = a ∧ v' = v := by simpa [hs.store] using hi
    exact ⟨st, b, rfl⟩
  | result _ _ _ _ _ hs | received _ _ hs _ | blocked hs _ | control _ _ hs | console _ _ hs | halted hs =>
    simp [hs.store] at hi

/-- A running engine's step, from the read its fetch makes: the word read is executed with the PC and the instruction
count one further. -/
theorem step_of_fetched {s : State} (hs : s.runState ≠ .halted) {w : Word} {b : List Byte}
    (h : memRead { s with runState := .ready } s.pc = (w, { s with runState := .ready, buffer := b })) :
    step s = exec (decode w)
      { s with
        runState := .ready, pc := s.pc + 1#16, buffer := b
        stats := { s.stats with instructions := s.stats.instructions + 1 } } := by
  have hfetch : fetch params s =
      (w, countInstruction (setPc { s with runState := .ready, buffer := b } (s.pc + 1#16))) := by
    simp [fetch, h, show params.statCountFetch = false from rfl]
  rw [step, if_neg hs, hfetch]
  rfl

/-- Settles O42: the store is a raw write at the PC, so the next step's fetch reads the value stored. -/
theorem storedWordIsFetchedByTheNextStep : Obligations.StoredWordIsFetchedByTheNextStep := by
  intro i s t v hwf hready hi ha h
  have hddr : s.pc ≠ 0xFE06#16 := fun e => ha (by simp [e])
  have hmcr : s.pc ≠ 0xFFFE#16 := fun e => ha (by simp [e])
  obtain ⟨st, b, rfl⟩ := exec_of_store h hi
  rw [memWrite_stored s v hddr hmcr]
  have hword : rawRead (rawWrite s s.pc v) s.pc = v := rawRead_rawWrite_same hwf s.pc v
  rw [step_of_fetched (w := v) (b := b) (by simp [hready])]
  · simp [hready]
  · exact (memRead_no_device _ ha).trans (congrArg (·, _) hword)

/-! ### Fetches at device registers -/

/-- A character as a word is a branch on no flag: its bits 15:9 are zero (R77). -/
theorem decode_zext (c : Byte) : decode (zext c) = .br false false false (bits (zext c) 0 9) := by
  have hbit (k : Nat) (hk : 8 ≤ k) : bit (zext c) k = false := by
    simp [bit, zext, BitVec.getLsbD_of_ge c k hk]
  have hop : bits (zext c) 12 4 = 0x0#4 := by
    ext k hk
    simpa [bits, bit] using hbit (12 + k) (by omega)
  unfold decode
  rw [hop, hbit 11 (by decide), hbit 10 (by decide), hbit 9 (by decide)]
  rfl

theorem exec_br_never (off9 : BitVec 9) (s : State) :
    exec (.br false false false off9) s = .next (countNotTaken s) := rfl

/-- Settles O43: a fetch at a device register reads a character, which is a branch that is never taken, or 0x8000, which
is an RTI. -/
theorem fetchAtADeviceRegisterReadsTheDevice : Obligations.FetchAtADeviceRegisterReadsTheDevice := by
  constructor
  · intro s hs hpc
    have hfetch : ∃ c, memRead { s with runState := .ready } s.pc =
        (zext c, { s with runState := .ready, buffer := s.buffer.tail }) := by
      obtain hkbdr | ⟨hkbsr, hb⟩ := hpc
      · exact ⟨_, by rw [hkbdr, memRead_kbdr]⟩
      · refine ⟨0#8, ?_⟩
        rw [hkbsr, memRead_kbsr, if_pos hb, hb, List.tail_nil, ← hb]
        rfl
    obtain ⟨c, hfetch⟩ := hfetch
    rw [step_of_fetched hs hfetch, decode_zext, exec_br_never]
    rfl
  · intro s hs hpc
    have hfetch : memRead { s with runState := .ready } s.pc = (0x8000#16, { s with runState := .ready }) := by
      obtain ⟨hkbsr, hb⟩ | hdsr | hmcr := hpc
      · simp [hkbsr, memRead_kbsr, hb]
      · rw [hdsr, memRead_dsr]
      · simp [hmcr, memRead_mcr]
    rw [step_of_fetched hs hfetch]
    rfl

/-! ### The frame of the memory array -/

theorem rawRead_memWrite_ne (s : State) {a b : Word} (v : Word) (h : b ≠ a) :
    rawRead (memWrite s a v) b = rawRead s b := by
  obtain ⟨-, e⟩ | ⟨-, -, e⟩ | ⟨-, -, e⟩ | ⟨-, -, e⟩ := memWrite_cases s a v
  · rw [e]; rfl
  · rw [e]
  · rw [e]; rfl
  · rw [e, rawRead_rawWrite_ne s v h]

/-- Settles O48, by the effects of an instruction: only a write through the intercept touches the array, and it leaves
every other address alone. -/
theorem onlyStoresChangeMemory : Obligations.OnlyStoresChangeMemory := by
  intro i s t h a ha
  cases exec_effect h with
  | wrote ea v st b hi => exact rawRead_memWrite_ne s v (ha ea v hi.store)
  | result dr v pc st b _ => rfl
  | received c o _ _ => exact rawRead_congr (takeInput_mem s) a
  | blocked _ _ => exact rawRead_congr (takeInput_mem s) a
  | control pc st _ => rfl
  | console o b _ => rfl
  | halted _ => rfl

end Sys2Proof.Machine

/-! PROOFS of the encoding (spec/30_encoding.md): the formats of R104 as a relation between words and instructions, the
decoder and the encoder read off it, the bits of R109, the step's fetch, a label's offset, and the disassembler's text
reassembled. -/

namespace Sys2Proof

/-! ### JMP and RET, TRAP and the services: one format each -/

theorem decodeJump_of_ne {base : Reg} (h : base ≠ .r7) : decodeJump base = .jmp base := if_neg h

theorem decodeTrap_of_not_service {v : BitVec 8} (h : isServiceVector v = false) : decodeTrap v = .trap v := by
  obtain ⟨h0, h1, h2, h3, h4, h5⟩ := not_isServiceVector h
  simp [decodeTrap, h0, h1, h2, h3, h4, h5]

/-- A function that takes RET as the jump through R7 takes every jump's decoding as the jump. -/
theorem apply_decodeJump {α : Type} (f : Instr → α) (hret : f .ret = f (.jmp .r7)) (base : Reg) :
    f (decodeJump base) = f (.jmp base) := by
  unfold decodeJump
  split
  next h => rw [h, hret]
  next => rfl

/-- A function that takes each service as the TRAP of its vector takes every TRAP's decoding as the TRAP. -/
theorem apply_decodeTrap {α : Type} (f : Instr → α) (hgetc : f .getc = f (.trap 0x20#8))
    (hout : f .out = f (.trap 0x21#8)) (hputs : f .puts = f (.trap 0x22#8)) (hin : f .inChar = f (.trap 0x23#8))
    (hputsp : f .putsp = f (.trap 0x24#8)) (hhalt : f .halt = f (.trap 0x25#8)) (v : BitVec 8) :
    f (decodeTrap v) = f (.trap v) := by
  unfold decodeTrap
  split_ifs <;> simp only [*]

theorem opcode_decodeJump (base : Reg) : (decodeJump base).opcode = 0xC#4 :=
  apply_decodeJump Instr.opcode rfl base

theorem opcode_decodeTrap (v : BitVec 8) : (decodeTrap v).opcode = 0xF#4 :=
  apply_decodeTrap Instr.opcode rfl rfl rfl rfl rfl rfl v

theorem encode_decodeJump (base : Reg) : encode (decodeJump base) = encode (.jmp base) :=
  apply_decodeJump encode rfl base

theorem encode_decodeTrap (v : BitVec 8) : encode (decodeTrap v) = encode (.trap v) :=
  apply_decodeTrap encode rfl rfl rfl rfl rfl rfl v

theorem wf_decodeJump (base : Reg) : (decodeJump base).WellFormed := by
  unfold decodeJump
  split
  next => rfl
  next h => exact decide_eq_true h

theorem wf_decodeTrap (v : BitVec 8) : (decodeTrap v).WellFormed := by
  cases hv : isServiceVector v with
  | false => rw [decodeTrap_of_not_service hv, Instr.WellFormed, Instr.wf, hv]; rfl
  | true =>
    have hservice : ∀ v, isServiceVector v = true → (decodeTrap v).wf = true := by decide
    exact hservice v hv

/-! ### The fields of a word -/

theorem bits_append_bits (w : Word) {hi lo n : Nat} (m : Nat) (h : hi = lo + n) :
    bits w hi m ++ bits w lo n = bits w lo (m + n) :=
  BitVec.extractLsb'_append_extractLsb'_eq_extractLsb' h

theorem bits_all (w : Word) : bits w 0 16 = w := BitVec.extractLsb'_eq_self

theorem toBits_regField (w : Word) (lo : Nat) : (regField w lo).toBits = bits w lo 3 := Reg.toBits_ofBits _

theorem ofBool_bit (w : Word) (k : Nat) : BitVec.ofBool (bit w k) = bits w k 1 := by
  ext i hi
  obtain rfl : i = 0 := by omega
  simp [bits, bit]

theorem bits_one_of_true {w : Word} {k : Nat} (h : bit w k = true) : bits w k 1 = 1#1 := by
  rw [← ofBool_bit, h]
  rfl

theorem bits_one_of_false {w : Word} {k : Nat} (h : ¬bit w k = true) : bits w k 1 = 0#1 := by
  rw [← ofBool_bit, eq_false_of_ne_true h]
  rfl

theorem fields_reg_off9 (w : Word) : bits w 12 4 ++ (regField w 9).toBits ++ bits w 0 9 = w := by
  simp -index (disch := rfl) only [toBits_regField, bits_append_bits, bits_all]

theorem fields_reg_reg_off6 (w : Word) :
    bits w 12 4 ++ (regField w 9).toBits ++ (regField w 6).toBits ++ bits w 0 6 = w := by
  simp -index (disch := rfl) only [toBits_regField, bits_append_bits, bits_all]

/-! ### The formats -/

/-- R104's formats with R108's opcodes: a word, field by field, and the instruction it holds. The fields `u` and `u'`
are the bits of R109. -/
inductive Layout : Word → Instr → Prop where
  | addReg (dr sr1 : Reg) (u : BitVec 2) (sr2 : Reg) :
      Layout (0x1#4 ++ dr.toBits ++ sr1.toBits ++ 0#1 ++ u ++ sr2.toBits) (.addReg dr sr1 sr2)
  | addImm (dr sr1 : Reg) (imm5 : BitVec 5) :
      Layout (0x1#4 ++ dr.toBits ++ sr1.toBits ++ 1#1 ++ imm5) (.addImm dr sr1 imm5)
  | andReg (dr sr1 : Reg) (u : BitVec 2) (sr2 : Reg) :
      Layout (0x5#4 ++ dr.toBits ++ sr1.toBits ++ 0#1 ++ u ++ sr2.toBits) (.andReg dr sr1 sr2)
  | andImm (dr sr1 : Reg) (imm5 : BitVec 5) :
      Layout (0x5#4 ++ dr.toBits ++ sr1.toBits ++ 1#1 ++ imm5) (.andImm dr sr1 imm5)
  | notReg (dr sr : Reg) (u : BitVec 6) : Layout (0x9#4 ++ dr.toBits ++ sr.toBits ++ u) (.notReg dr sr)
  | br (n z p : Bool) (off9 : BitVec 9) :
      Layout (0x0#4 ++ BitVec.ofBool n ++ BitVec.ofBool z ++ BitVec.ofBool p ++ off9) (.br n z p off9)
  | jump (u : BitVec 3) (base : Reg) (u' : BitVec 6) : Layout (0xC#4 ++ u ++ base.toBits ++ u') (decodeJump base)
  | jsr (off11 : BitVec 11) : Layout (0x4#4 ++ 1#1 ++ off11) (.jsr off11)
  | jsrr (u : BitVec 2) (base : Reg) (u' : BitVec 6) : Layout (0x4#4 ++ 0#1 ++ u ++ base.toBits ++ u') (.jsrr base)
  | ld (dr : Reg) (off9 : BitVec 9) : Layout (0x2#4 ++ dr.toBits ++ off9) (.ld dr off9)
  | ldi (dr : Reg) (off9 : BitVec 9) : Layout (0xA#4 ++ dr.toBits ++ off9) (.ldi dr off9)
  | ldr (dr base : Reg) (off6 : BitVec 6) : Layout (0x6#4 ++ dr.toBits ++ base.toBits ++ off6) (.ldr dr base off6)
  | lea (dr : Reg) (off9 : BitVec 9) : Layout (0xE#4 ++ dr.toBits ++ off9) (.lea dr off9)
  | st (sr : Reg) (off9 : BitVec 9) : Layout (0x3#4 ++ sr.toBits ++ off9) (.st sr off9)
  | sti (sr : Reg) (off9 : BitVec 9) : Layout (0xB#4 ++ sr.toBits ++ off9) (.sti sr off9)
  | str (sr base : Reg) (off6 : BitVec 6) : Layout (0x7#4 ++ sr.toBits ++ base.toBits ++ off6) (.str sr base off6)
  | rti (u : BitVec 12) : Layout (0x8#4 ++ u) .rti
  | reserved (u : BitVec 12) : Layout (0xD#4 ++ u) .reserved
  | trap (u : BitVec 4) (v : BitVec 8) : Layout (0xF#4 ++ u ++ v) (decodeTrap v)

theorem Layout.of_eq {w w' : Word} {i : Instr} (h : Layout w' i) (e : w' = w) : Layout w i := e ▸ h

/-- ADD and AND, whose formats differ in the opcode alone. -/
theorem layout_decodeOperate {op : BitVec 4} {reg : Reg → Reg → Reg → Instr} {imm : Reg → Reg → BitVec 5 → Instr}
    (hreg : ∀ dr sr1 (u : BitVec 2) sr2,
      Layout (op ++ dr.toBits ++ sr1.toBits ++ 0#1 ++ u ++ sr2.toBits) (reg dr sr1 sr2))
    (himm : ∀ dr sr1 imm5, Layout (op ++ dr.toBits ++ sr1.toBits ++ 1#1 ++ imm5) (imm dr sr1 imm5))
    {w : Word} (hop : bits w 12 4 = op) : Layout w (decodeOperate w reg imm) := by
  unfold decodeOperate
  split
  next hb =>
    exact (himm _ _ _).of_eq (by
      simp -index (disch := rfl) only
        [← hop, ← bits_one_of_true hb, toBits_regField, bits_append_bits, bits_all])
  next hb =>
    exact (hreg _ _ (bits w 3 2) _).of_eq (by
      simp -index (disch := rfl) only
        [← hop, ← bits_one_of_false hb, toBits_regField, bits_append_bits, bits_all])

/-- Every word has a format (R102), and the decoder reads its fields: the word is those fields, one after another. -/
theorem layout_decode (w : Word) : Layout w (decode w) := by
  unfold decode
  split
  next hop =>
    exact (Layout.br ..).of_eq (by simp -index (disch := rfl) only [← hop, ofBool_bit, bits_append_bits, bits_all])
  next hop => exact layout_decodeOperate .addReg .addImm hop
  next hop => exact (Layout.ld ..).of_eq (by rw [← hop, fields_reg_off9])
  next hop => exact (Layout.st ..).of_eq (by rw [← hop, fields_reg_off9])
  next hop =>
    split
    next hb =>
      exact (Layout.jsr ..).of_eq (by
        simp -index (disch := rfl) only [← hop, ← bits_one_of_true hb, bits_append_bits, bits_all])
    next hb =>
      exact (Layout.jsrr (bits w 9 2) _ (bits w 0 6)).of_eq (by
        simp -index (disch := rfl) only
          [← hop, ← bits_one_of_false hb, toBits_regField, bits_append_bits, bits_all])
  next hop => exact layout_decodeOperate .andReg .andImm hop
  next hop => exact (Layout.ldr ..).of_eq (by rw [← hop, fields_reg_reg_off6])
  next hop => exact (Layout.str ..).of_eq (by rw [← hop, fields_reg_reg_off6])
  next hop =>
    exact (Layout.rti (bits w 0 12)).of_eq (by
      simp -index (disch := rfl) only [← hop, bits_append_bits, bits_all])
  next hop => exact (Layout.notReg _ _ (bits w 0 6)).of_eq (by rw [← hop, fields_reg_reg_off6])
  next hop => exact (Layout.ldi ..).of_eq (by rw [← hop, fields_reg_off9])
  next hop => exact (Layout.sti ..).of_eq (by rw [← hop, fields_reg_off9])
  next hop =>
    exact (Layout.jump (bits w 9 3) _ (bits w 0 6)).of_eq (by
      simp -index (disch := rfl) only [← hop, toBits_regField, bits_append_bits, bits_all])
  next hop =>
    exact (Layout.reserved (bits w 0 12)).of_eq (by
      simp -index (disch := rfl) only [← hop, bits_append_bits, bits_all])
  next hop => exact (Layout.lea ..).of_eq (by rw [← hop, fields_reg_off9])
  next =>
    have hop : bits w 12 4 = 0xF#4 := by
      generalize bits w 12 4 = op at *
      revert op
      decide
    exact (Layout.trap (bits w 8 4) _).of_eq (by
      simp -index (disch := rfl) only [← hop, bits_append_bits, bits_all])

theorem bits_opcode_of_layout {w : Word} {i : Instr} (h : Layout w i) : bits w 12 4 = i.opcode := by
  cases h <;>
    simp -index (disch := decide) only [bits, BitVec.extractLsb'_append_eq_of_le, opcode_decodeJump,
      opcode_decodeTrap] <;> rfl

/-- The decoder gives back what the fields hold: its dispatch on the format's opcode, then its reading of each field. -/
theorem decode_of_layout {w : Word} {i : Instr} (h : Layout w i) : decode w = i := by
  have hop := bits_opcode_of_layout h
  unfold decode
  rw [hop]
  cases h <;>
    simp -index (disch := decide) only [opcode_decodeJump, opcode_decodeTrap, decodeOperate, regField, bits, bit,
      BitVec.getLsbD_append, BitVec.extractLsb'_append_eq_of_le, BitVec.extractLsb'_append_eq_of_add_le,
      BitVec.extractLsb'_eq_self, Reg.ofBits_toBits] <;>
    simp [Instr.opcode]

theorem wf_of_layout {w : Word} {i : Instr} (h : Layout w i) : i.WellFormed := by
  cases h with
  | jump _ base _ => exact wf_decodeJump base
  | trap _ v => exact wf_decodeTrap v
  | _ => rfl

/-- The canonical word has its instruction's format, with the assembler's values in the bits of R109. -/
theorem layout_encode {i : Instr} (h : i.WellFormed) : Layout (encode i) i := by
  cases i with
  | addReg dr sr1 sr2 => exact .addReg dr sr1 0 sr2
  | addImm dr sr1 imm5 => exact .addImm dr sr1 imm5
  | andReg dr sr1 sr2 => exact .andReg dr sr1 0 sr2
  | andImm dr sr1 imm5 => exact .andImm dr sr1 imm5
  | notReg dr sr => exact .notReg dr sr 0x3F
  | br n z p off9 => exact .br n z p off9
  | jmp base =>
    have hlayout := Layout.jump 0 base 0
    rw [decodeJump_of_ne (of_decide_eq_true h)] at hlayout
    exact hlayout
  | ret => exact .jump 0 .r7 0
  | jsr off11 => exact .jsr off11
  | jsrr base => exact .jsrr 0 base 0
  | ld dr off9 => exact .ld dr off9
  | ldi dr off9 => exact .ldi dr off9
  | ldr dr base off6 => exact .ldr dr base off6
  | lea dr off9 => exact .lea dr off9
  | st sr off9 => exact .st sr off9
  | sti sr off9 => exact .sti sr off9
  | str sr base off6 => exact .str sr base off6
  | rti => exact .rti 0
  | reserved => exact .reserved 0
  | trap v =>
    have hlayout := Layout.trap 0 v
    rw [decodeTrap_of_not_service ((Bool.not_eq_true' _).mp h)] at hlayout
    exact hlayout
  | getc => exact .trap 0 0x20
  | out => exact .trap 0 0x21
  | puts => exact .trap 0 0x22
  | inChar => exact .trap 0 0x23
  | putsp => exact .trap 0 0x24
  | halt => exact .trap 0 0x25

/-! ### Decoding and encoding -/

theorem decode_encode {i : Instr} (h : i.WellFormed) : decode (encode i) = i := decode_of_layout (layout_encode h)

theorem wf_decode (w : Word) : (decode w).WellFormed := wf_of_layout (layout_decode w)

theorem opcode_decode (w : Word) : (decode w).opcode = bits w 12 4 := (bits_opcode_of_layout (layout_decode w)).symm

theorem decode_encode_decode (w : Word) : decode (encode (decode w)) = decode w := decode_encode (wf_decode w)

/-- A canonical word stays as it is, that of an ill-formed `jmp .r7` or `trap` of a service's vector included: it is
the canonical word of RET or of the service. -/
theorem encode_decode_encode (i : Instr) : encode (decode (encode i)) = encode i := by
  cases i with
  | jmp base => rw [decode_of_layout (w := encode (.jmp base)) (.jump 0 base 0), encode_decodeJump]
  | trap v => rw [decode_of_layout (w := encode (.trap v)) (.trap 0 v), encode_decodeTrap]
  | _ => rw [decode_encode rfl]

/-- Settles O1: the canonical word has the instruction's format, which the decoder reads back. -/
theorem decodeOfEncodeIsTheInstruction : Obligations.DecodeOfEncodeIsTheInstruction := fun _ h => decode_encode h

/-- Settles O3: every word has the format of the instruction it decodes to. -/
theorem everyWordIsAnInstructionOfItsOpcode : Obligations.EveryWordIsAnInstructionOfItsOpcode :=
  fun w => ⟨wf_decode w, opcode_decode w⟩

/-! ### The bits of R109 -/

/-- The bits of R109 in an instruction's format, field by field. -/
def Instr.uncheckedBits : Instr → Word
  | .addReg _ _ _ | .andReg _ _ _ => 0#4 ++ 0#3 ++ 0#3 ++ 0#1 ++ BitVec.allOnes 2 ++ 0#3
  | .notReg _ _ => 0#4 ++ 0#3 ++ 0#3 ++ BitVec.allOnes 6
  | .jmp _ | .ret => 0#4 ++ BitVec.allOnes 3 ++ 0#3 ++ BitVec.allOnes 6
  | .jsrr _ => 0#4 ++ 0#1 ++ BitVec.allOnes 2 ++ 0#3 ++ BitVec.allOnes 6
  | .rti | .reserved => 0#4 ++ BitVec.allOnes 12
  | .trap _ | .getc | .out | .puts | .inChar | .putsp | .halt => 0#4 ++ BitVec.allOnes 4 ++ 0#8
  | .addImm _ _ _ | .andImm _ _ _ | .br _ _ _ _ | .jsr _ | .ld _ _ | .ldi _ _ | .ldr _ _ _ | .lea _ _ | .st _ _
  | .sti _ _ | .str _ _ _ => 0#16

theorem uncheckedBits_decodeJump (base : Reg) :
    (decodeJump base).uncheckedBits = 0#4 ++ BitVec.allOnes 3 ++ 0#3 ++ BitVec.allOnes 6 :=
  apply_decodeJump Instr.uncheckedBits rfl base

theorem uncheckedBits_decodeTrap (v : BitVec 8) :
    (decodeTrap v).uncheckedBits = 0#4 ++ BitVec.allOnes 4 ++ 0#8 :=
  apply_decodeTrap Instr.uncheckedBits rfl rfl rfl rfl rfl rfl v

/-- The mask of a word is that of its format. -/
theorem ignoredBits_of_layout {w : Word} {i : Instr} (h : Layout w i) : ignoredBits w = i.uncheckedBits := by
  have hop := bits_opcode_of_layout h
  unfold ignoredBits
  rw [hop]
  cases h <;>
    simp -index only [uncheckedBits_decodeJump, uncheckedBits_decodeTrap, opcode_decodeJump, opcode_decodeTrap, bit,
      BitVec.getLsbD_append] <;>
    simp [Instr.opcode, Instr.uncheckedBits]

theorem ignoredBits_eq_uncheckedBits (w : Word) : ignoredBits w = (decode w).uncheckedBits :=
  ignoredBits_of_layout (layout_decode w)

/-- A word with zeros in the bits the engine does not check. -/
def checkedBits (w : Word) : Word := w &&& ~~~ignoredBits w

theorem and_not_append {m n : Nat} (x a : BitVec m) (y b : BitVec n) :
    (x ++ y) &&& ~~~(a ++ b) = (x &&& ~~~a) ++ (y &&& ~~~b) := by
  rw [BitVec.not_append, BitVec.and_append]

theorem and_not_zero {n : Nat} (x : BitVec n) : x &&& ~~~0#n = x := by simp

theorem and_not_allOnes {n : Nat} (x : BitVec n) : x &&& ~~~BitVec.allOnes n = 0#n := by simp

/-- The canonical word, field by field: the fields of the format's mask cleared, in NOT then set, the others kept. -/
theorem encode_of_layout {w : Word} {i : Instr} (h : Layout w i) : encode i = checkedBits w ||| canonicalBits w := by
  rw [checkedBits, canonicalBits, ignoredBits_of_layout h, bits_opcode_of_layout h]
  cases h
  case jump u base u' =>
    rw [uncheckedBits_decodeJump, opcode_decodeJump, encode_decodeJump, if_neg (by decide)]
    simp -index only [and_not_append, and_not_zero, and_not_allOnes, BitVec.or_zero, encode]
  case trap u v =>
    rw [uncheckedBits_decodeTrap, opcode_decodeTrap, encode_decodeTrap, if_neg (by decide)]
    simp -index only [and_not_append, and_not_zero, and_not_allOnes, BitVec.or_zero, encode]
  case notReg dr sr u =>
    have hones : 0x3F#16 = 0#4 ++ 0#3 ++ 0#3 ++ 0x3F#6 := rfl
    rw [Instr.opcode, if_pos rfl, hones]
    simp -index only [Instr.uncheckedBits, and_not_append, and_not_zero, and_not_allOnes, BitVec.or_append,
      BitVec.or_zero, BitVec.zero_or, encode]
  all_goals
    rw [Instr.opcode, if_neg (by decide)]
    simp -index only [Instr.uncheckedBits, and_not_append, and_not_zero, and_not_allOnes, BitVec.or_zero, encode]

theorem encode_decode (w : Word) : encode (decode w) = checkedBits w ||| canonicalBits w :=
  encode_of_layout (layout_decode w)

/-- The assembler's values are in bits that the engine does not check. -/
theorem canonicalBits_and_not_ignoredBits (w : Word) : canonicalBits w &&& ~~~ignoredBits w = 0#16 := by
  by_cases hop : bits w 12 4 = 0x9#4
  · simp [canonicalBits, ignoredBits, hop]
  · rw [canonicalBits, if_neg hop, BitVec.zero_and]

/-- The checked bits of a word are those of its canonical word, so they depend on its decoding alone. -/
theorem checkedBits_eq (w : Word) : checkedBits w = encode (decode w) &&& ~~~(decode w).uncheckedBits := by
  rw [encode_decode, ← ignoredBits_eq_uncheckedBits, BitVec.and_or_distrib_right, canonicalBits_and_not_ignoredBits,
    BitVec.or_zero, checkedBits, BitVec.and_assoc, BitVec.and_self]

theorem bits_opcode_checkedBits (w : Word) : bits (checkedBits w) 12 4 = bits w 12 4 := by
  have hnone : (~~~ignoredBits w).extractLsb' 12 4 = BitVec.allOnes 4 := by
    simp only [ignoredBits]
    split_ifs <;> rfl
  rw [bits, checkedBits, BitVec.extractLsb'_and, hnone, BitVec.and_allOnes, bits]

theorem canonicalBits_congr {w w' : Word} (h : bits w 12 4 = bits w' 12 4) : canonicalBits w = canonicalBits w' := by
  rw [canonicalBits, canonicalBits, h]

theorem decode_eq_iff (w w' : Word) : decode w = decode w' ↔ checkedBits w = checkedBits w' := by
  constructor
  · intro h
    rw [checkedBits_eq, h, ← checkedBits_eq]
  · intro h
    have hop : bits w 12 4 = bits w' 12 4 := by rw [← bits_opcode_checkedBits, h, bits_opcode_checkedBits]
    have hcanonical : encode (decode w) = encode (decode w') := by
      rw [encode_decode, encode_decode, h, canonicalBits_congr hop]
    rw [← decode_encode_decode w, hcanonical, decode_encode_decode]

/-- Settles O2: a word's canonical word is its checked bits with the assembler's values in the others, and decodes
alike; so the checked bits and the decoding determine each other. -/
theorem decodeIgnoresExactlyTheUncheckedBits : Obligations.DecodeIgnoresExactlyTheUncheckedBits :=
  ⟨decode_eq_iff, encode_decode, fun w _ => by rw [decode_encode_decode]⟩

end Sys2Proof

namespace Sys2Proof.Machine

/-! ### The step's fetch -/

/-- The fetch at any parameters, from the read it makes: the word read, and the state of the read with the PC and the
instruction count one further, the read counted where `P_STAT_COUNT_FETCH` says so. -/
theorem fetch_of_memRead (cfg : Config) {s s1 : State} {ir : Word}
    (h : memRead { s with runState := .ready } s.pc = (ir, s1)) :
    fetch cfg s = (ir, { s1 with
      pc := s.pc + 1#16
      stats := { s.stats with
        instructions := s.stats.instructions + 1
        memReads := if cfg.statCountFetch then s.stats.memReads + 1 else s.stats.memReads } }) := by
  have hpc : s1.pc = s.pc := by simpa [h] using memRead_pc { s with runState := .ready } s.pc
  have hstats : s1.stats = s.stats := by simpa [h] using memRead_stats { s with runState := .ready } s.pc
  cases hc : cfg.statCountFetch <;>
    simp [fetch, h, hc, hpc, hstats, countInstruction, setPc, countReads]

/-- A running engine's step at any parameters, from the read its fetch makes. -/
theorem stepAt_of_memRead (cfg : Config) {s s1 : State} {ir : Word} (hs : s.runState ≠ .halted)
    (h : memRead { s with runState := .ready } s.pc = (ir, s1)) :
    stepAt cfg s = execAt cfg (decode ir) { s1 with
      pc := s.pc + 1#16
      stats := { s.stats with
        instructions := s.stats.instructions + 1
        memReads := if cfg.statCountFetch then s.stats.memReads + 1 else s.stats.memReads } } := by
  rw [stepAt_running cfg hs, fetch_of_memRead cfg h]

/-- Settles O38: the step at any parameters is the execution of the fetched word, and `step` is the one at the spec
values, where the fetch is not counted. -/
theorem stepExecutesTheFetchedInstruction : Obligations.StepExecutesTheFetchedInstruction := by
  refine ⟨fun s hs => if_pos hs, ?_, fun cfg s hs => stepAt_halted cfg hs,
    fun cfg s s1 ir hs h => stepAt_of_memRead cfg hs h⟩
  intro s s1 ir hs h
  rw [← stepAt_params, stepAt_of_memRead params hs h, execAt_params]
  rfl

end Sys2Proof.Machine

namespace Sys2Proof.Asm

open Machine

/-! ### Offset fields -/

theorem ofInt_toNat {w : Nat} (v : BitVec w) : BitVec.ofInt w v.toNat = v := by simp

theorem signedField_errors_eq_nil_iff (w : Nat) (v : Int) :
    (signedField w v).2 = [] ↔ -(2 ^ (w - 1) : Int) ≤ v ∧ v < 2 ^ (w - 1) := by
  simp [signedField, fitsSigned]

theorem signedField_value (w : Nat) (v : Word) (h : w ≤ 16) : (signedField w v.toInt).1 = v.setWidth w := by
  rw [signedField, ← BitVec.signExtend_eq_setWidth_of_le v h, BitVec.signExtend]

/-- A field that takes a difference without an error extends to it again. -/
theorem sext_signedField {w : Nat} (hw : 0 < w) {v : Word} (h : (signedField w v.toInt).2 = []) :
    sext (signedField w v.toInt).1 = v := by
  obtain ⟨hlo, hhi⟩ := (signedField_errors_eq_nil_iff w v.toInt).mp h
  rw [sext_eq_word, signedField, BitVec.toInt_ofInt_eq_self hw hlo hhi, word, BitVec.ofInt_toInt]

theorem offsetField_label (mode : NumeralOffset) {symbols : List (Text × Word)} {name : Text} {target : Word}
    (h : find symbols name = some target) (a : Word) (w : Nat) :
    offsetField mode symbols a w (.label name) = signedField w (target - (a + 1#16)).toInt := by
  simp only [offsetField, h, labelOffset]

/-- The engine's PC-relative address of a label's field is the label's, where the assembler reports no error. -/
theorem pcRelative_offsetField_label {mode : NumeralOffset} {symbols : List (Text × Word)} {name : Text}
    {a target : Word} {w : Nat} {s : State} (hw : 0 < w) (h : find symbols name = some target) (hpc : s.pc = a + 1#16)
    (hfit : (offsetField mode symbols a w (.label name)).2 = []) :
    pcRelative s (offsetField mode symbols a w (.label name)).1 = target := by
  rw [offsetField_label mode h] at hfit ⊢
  rw [pcRelative, sext_signedField hw hfit, hpc, BitVec.add_comm, BitVec.sub_add_cancel]

/-- Settles O59: the field is the signed field of the difference, and its PC-relative address is the label's. -/
theorem assembledOffsetReachesTheLabel : Obligations.AssembledOffsetReachesTheLabel := by
  refine ⟨?_, ?_, ?_⟩
  · intro mode symbols name a target w h _ hw
    rw [offsetField_label mode h]
    exact ⟨signedField_value w _ hw, signedField_errors_eq_nil_iff w _⟩
  · intro mode symbols name a target dr s h hpc hfit
    refine ⟨_, rfl, ?_⟩
    rw [readReg_writeResult_same, pcRelative_offsetField_label (by decide) h hpc hfit]
  · intro mode symbols name a target s h hpc hfit
    exact ⟨_, rfl, pcRelative_offsetField_label (by decide) h hpc hfit⟩

/-! ### The disassembler -/

theorem signedField_toInt {w : Nat} (v : BitVec w) : signedField w v.toInt = (v, []) := by
  have hfit : (signedField w v.toInt).2 = [] :=
    (signedField_errors_eq_nil_iff w _).mpr ⟨BitVec.le_toInt v, BitVec.toInt_lt⟩
  exact Prod.ext BitVec.ofInt_toInt hfit

/-- The assembler takes the numeral the disassembler writes for an offset back to that offset, whichever way it reads
numerals in a label position. -/
theorem offsetField_targetOf (mode : NumeralOffset) (symbols : List (Text × Word)) (a : Word) {w : Nat} (h : w ≤ 16)
    (off : BitVec w) : offsetField mode symbols a w (targetOf mode a off) = (off, []) := by
  cases mode with
  | offset => exact signedField_toInt off
  | address =>
    have hoffset : labelOffset a (BitVec.ofInt 16 (a + 1#16 + off.signExtend 16).toNat) = off.toInt := by
      rw [labelOffset, ofInt_toNat, BitVec.add_comm (a + 1#16), BitVec.add_sub_cancel,
        BitVec.toInt_signExtend_of_le h]
    rw [targetOf, offsetField, hoffset, signedField_toInt]

theorem fillWord_num (symbols : List (Text × Word)) (w : Word) : fillWord symbols (.num w.toNat) = (w, []) := by
  rw [fillWord, ofInt_toNat]

theorem size_disassemble (mode : NumeralOffset) (w a : Word) : size (disassemble mode w a) = 1 := by
  unfold disassemble
  cases decode w with
  | br n z p off9 => dsimp only; split <;> rfl
  | _ => rfl

/-- What pass 2 emits of a TRAP with a vector written as a numeral: its canonical word, without an error. -/
theorem emitWords_trap (mode : NumeralOffset) (symbols : List (Text × Word)) (a : Word) (v : BitVec 8) :
    emitWords mode symbols a (.trap v.toNat) = ([encode (.trap v)], []) := by
  have hfit : fitsUnsigned 8 v.toNat = true := by
    have := v.isLt
    simp only [fitsUnsigned, decide_eq_true_eq]
    omega
  rw [emitWords, if_pos hfit, ofInt_toNat]

/-- The statement of a word's disassembly emits, without an error, the canonical word of what the word decodes to, or,
by `.FILL`, the word itself. -/
theorem emitWords_disassemble (mode : NumeralOffset) (symbols : List (Text × Word)) (w a : Word) :
    emitWords mode symbols a (disassemble mode w a) = ([encode (decode w)], []) ∨
    emitWords mode symbols a (disassemble mode w a) = ([w], []) := by
  have hfill : emitWords mode symbols a (.fill (.num w.toNat)) = ([w], []) := by rw [emitWords, fillWord_num]
  unfold disassemble
  cases decode w with
  | addReg | andReg | notReg | jmp | ret | jsrr | rti => exact .inl rfl
  | addImm | andImm | ldr | str => exact .inl (by simp only [emitWords, signedField_toInt])
  | br n z p off9 =>
    dsimp only
    split
    · exact .inl (by simp only [emitWords, offsetField_targetOf mode symbols a (by decide : 9 ≤ 16)])
    · exact .inr hfill
  | jsr off11 => exact .inl (by simp only [emitWords, offsetField_targetOf mode symbols a (by decide : 11 ≤ 16)])
  | ld | ldi | lea | st | sti =>
    exact .inl (by simp only [emitWords, offsetField_targetOf mode symbols a (by decide : 9 ≤ 16)])
  | reserved => exact .inr hfill
  | trap v => exact .inl (emitWords_trap mode symbols a v)
  | getc | out | puts | inChar | putsp | halt => exact .inl rfl

/-- Settles O60: the source reads back as the two statements, and the second emits the word, or its canonical word,
which decodes alike and is the word itself where the word is canonical. -/
theorem disassemblyReassembles : Obligations.DisassemblyReassembles := by
  intro mode w a
  have hsource := assemble_one mode a (written_disassemble mode w a) (size_disassemble mode w a)
  obtain ⟨v, hemit, hdecode, hsame⟩ : ∃ v, emitWords mode [] a (disassemble mode w a) = ([v], []) ∧
      decode v = decode w ∧ ∀ i, w = encode i → v = w := by
    obtain h | h := emitWords_disassemble mode [] w a
    · exact ⟨_, h, decode_encode_decode w, by rintro i rfl; exact encode_decode_encode i⟩
    · exact ⟨w, h, rfl, fun _ _ => rfl⟩
  rw [hemit] at hsource
  exact ⟨v, congrArg Output.errors hsource, congrArg Output.origin hsource, congrArg Output.words hsource, hdecode,
    hsame⟩

end Sys2Proof.Asm

/-! PROOFS of the operate instructions (spec/40_operate.md): a result written to a register and what that leaves alone,
the sums, conjunctions and complements as the statements name them, and the idioms of the ALU. -/

namespace Sys2Proof.Machine

/-! ### The meaning of each form -/

theorem exec_addReg (dr sr1 sr2 : Reg) (s : State) :
    exec (.addReg dr sr1 sr2) s = .next (writeResult s dr (readReg s sr1 + readReg s sr2)) := rfl

theorem exec_addImm (dr sr1 : Reg) (imm5 : BitVec 5) (s : State) :
    exec (.addImm dr sr1 imm5) s = .next (writeResult s dr (readReg s sr1 + sext imm5)) := rfl

theorem exec_andReg (dr sr1 sr2 : Reg) (s : State) :
    exec (.andReg dr sr1 sr2) s = .next (writeResult s dr (readReg s sr1 &&& readReg s sr2)) := rfl

theorem exec_andImm (dr sr1 : Reg) (imm5 : BitVec 5) (s : State) :
    exec (.andImm dr sr1 imm5) s = .next (writeResult s dr (readReg s sr1 &&& sext imm5)) := rfl

theorem exec_notReg (dr sr : Reg) (s : State) :
    exec (.notReg dr sr) s = .next (writeResult s dr (~~~readReg s sr)) := rfl

/-! ### A result in a register -/

theorem readReg_writeResult (s : State) (r r' : Reg) (v : Word) :
    readReg (writeResult s r v) r' = if r' = r then v else readReg s r' := readReg_writeReg s r r' v

theorem writeResult_onlyRegister (s : State) (dr : Reg) (v : Word) : OnlyRegister dr s (writeResult s dr v) where
  regs _ hr := readReg_writeResult_ne s v hr
  stats := rfl
  memory _ := rfl
  world := ⟨rfl, rfl, rfl, rfl, rfl⟩

/-- What every operate instruction does beside its result: the flags are those of DR, the rest stays (R37). -/
theorem writeResult_frame (s : State) (dr : Reg) (v : Word) :
    FlagsDescribe (writeResult s dr v).flags (readReg (writeResult s dr v) dr) ∧
    (writeResult s dr v).pc = s.pc ∧ OnlyRegister dr s (writeResult s dr v) := by
  refine ⟨?_, writeResult_pc s dr v, writeResult_onlyRegister s dr v⟩
  rw [writeResult_flags, readReg_writeResult_same]
  exact flagsOf_describe v

/-! ### Sums modulo 2^16 -/

theorem word_toNat (a : Word) : word a.toNat = a := by
  rw [word, BitVec.ofInt_natCast, BitVec.ofNat_toNat, BitVec.setWidth_eq]

theorem word_toNat_add (a : Word) (x : Int) : word (a.toNat + x) = a + word x := by
  rw [word, BitVec.ofInt_add, ← word, ← word, word_toNat]

/-! ### The operate instructions -/

/-- Settles O5: the result is a sum of words, which is the word of the sum. -/
theorem addPutsTheSumInDr : Obligations.AddPutsTheSumInDr := by
  refine ⟨fun w hop => ?_, fun dr sr1 sr2 s => ?_, fun dr sr1 imm5 s => ?_⟩
  · rw [decode, hop]
    rfl
  · refine ⟨_, exec_addReg dr sr1 sr2 s, ?_, writeResult_frame ..⟩
    rw [readReg_writeResult_same, word_toNat_add, word_toNat]
  · refine ⟨_, exec_addImm dr sr1 imm5 s, ?_, writeResult_frame ..⟩
    rw [readReg_writeResult_same, word_toNat_add, sext_eq_word]

/-- Settles O6: the result is the `and` of two words, bit by bit. -/
theorem andPutsTheConjunctionInDr : Obligations.AndPutsTheConjunctionInDr := by
  refine ⟨fun w hop => ?_, fun dr sr1 sr2 s => ?_, fun dr sr1 imm5 s => ?_⟩
  · rw [decode, hop]
    rfl
  · refine ⟨_, exec_andReg dr sr1 sr2 s, fun k => ?_, writeResult_frame ..⟩
    rw [readReg_writeResult_same, BitVec.getLsbD_and]
  · refine ⟨_, exec_andImm dr sr1 imm5 s, fun k => ?_, writeResult_frame ..⟩
    rw [readReg_writeResult_same, BitVec.getLsbD_and, sext_eq_word]

/-- Settles O7: the result is the complement of a word, bit by bit; the encoding ends in the six ones. -/
theorem notPutsTheComplementInDr : Obligations.NotPutsTheComplementInDr := by
  refine ⟨fun w hop => ?_, fun dr sr s => ?_, fun dr sr => BitVec.extractLsb'_append_eq_right⟩
  · rw [decode, hop]
    rfl
  · refine ⟨_, exec_notReg dr sr s, fun k hk => ?_, writeResult_frame ..⟩
    rw [readReg_writeResult_same, BitVec.getLsbD_not, decide_eq_true hk, Bool.true_and]

/-- Settles O8: the flags describe the result, whose signed value is the balanced remainder of the signed sum. -/
theorem additionIsOneForSignedAndUnsigned : Obligations.AdditionIsOneForSignedAndUnsigned := by
  intro dr sr1 sr2 s
  have hflags := flagsOf_describe (readReg s sr1 + readReg s sr2)
  have hsigned := BitVec.toInt_add (readReg s sr1) (readReg s sr2)
  refine ⟨_, exec_addReg dr sr1 sr2 s, ?_⟩
  rw [readReg_writeResult_same, writeResult_flags]
  exact ⟨BitVec.toNat_add .., hsigned, hsigned ▸ hflags.n, hsigned ▸ hflags.p⟩

/-! ### The idioms of the ALU -/

theorem execAll_nil (s : State) : execAll [] s = .next s := rfl

theorem execAll_cons_of_next {i : Instr} {s t : State} (h : exec i s = .next t) (is : List Instr) :
    execAll (i :: is) s = execAll is t := by
  rw [execAll, h]

/-! The words of the immediates 1, 0 and -1, and R158's equations. -/

theorem not_add_sext_one (a : Word) : ~~~a + sext (1 : BitVec 5) = -a := (BitVec.neg_eq_not_add a).symm

theorem add_not_add_sext_one (a b : Word) : a + (~~~b + sext (1 : BitVec 5)) = a - b := by
  rw [not_add_sext_one, BitVec.sub_eq_add_neg]

theorem add_sext_zero (a : Word) : a + sext (0 : BitVec 5) = a := BitVec.add_zero a

theorem and_sext_zero (a : Word) : a &&& sext (0 : BitVec 5) = 0#16 := BitVec.and_zero

theorem and_sext_neg_one (a : Word) : a &&& sext (-1 : BitVec 5) = a := BitVec.and_allOnes

theorem add_self_eq_shiftLeft_one (a : Word) : a + a = a <<< 1 := by bv_omega

theorem not_and_not (a b : Word) : ~~~(~~~a &&& ~~~b) = a ||| b := by
  rw [BitVec.not_and, BitVec.not_not, BitVec.not_not]

/-- Settles O9: each sequence runs to nested results, whose last value is the equation of its row of R158's table. -/
theorem aluIdiomsCompute : Obligations.AluIdiomsCompute := by
  intro s
  simp only [execAll_cons_of_next (exec_addReg ..), execAll_cons_of_next (exec_addImm ..),
    execAll_cons_of_next (exec_andReg ..), execAll_cons_of_next (exec_andImm ..),
    execAll_cons_of_next (exec_notReg ..), execAll_nil, Host.Outcome.next.injEq, exists_eq_left',
    writeResult_flags, readReg_writeResult, reduceCtorEq, if_true, if_false]
  generalize readReg s .r0 = a, readReg s .r1 = b
  rw [add_not_add_sext_one, and_sext_zero, add_sext_zero, and_sext_neg_one]
  exact ⟨not_add_sext_one a, ⟨rfl, flagsOf_describe (a - b)⟩, add_self_eq_shiftLeft_one a, ⟨rfl, rfl⟩,
    ⟨rfl, flagsOf_describe a⟩, ⟨rfl, flagsOf_describe a⟩, ⟨rfl, flagsOf_describe a⟩, not_and_not a b⟩

end Sys2Proof.Machine

/-! PROOFS of data movement (spec/41_data_movement.md): a load, a store and a pointer read of the intercept, each said
once over a state whose input buffer and statistics an earlier read may have changed, and the seven instructions. -/

namespace Sys2Proof.Machine

/-! ### The meaning of each instruction -/

theorem exec_ld (dr : Reg) (off9 : BitVec 9) (s : State) :
    exec (.ld dr off9) s = .next (loadFrom s dr (pcRelative s off9)) := rfl

theorem exec_ldi (dr : Reg) (off9 : BitVec 9) (s : State) :
    exec (.ldi dr off9) s = .next (loadFrom (readPointer s off9).2 dr (readPointer s off9).1) := rfl

theorem exec_lea (dr : Reg) (off9 : BitVec 9) (s : State) :
    exec (.lea dr off9) s = .next (writeResult s dr (pcRelative s off9)) := rfl

theorem exec_st (sr : Reg) (off9 : BitVec 9) (s : State) :
    exec (.st sr off9) s = .next (storeTo s (pcRelative s off9) (readReg s sr)) := rfl

theorem exec_sti (sr : Reg) (off9 : BitVec 9) (s : State) :
    exec (.sti sr off9) s = .next (storeTo (readPointer s off9).2 (readPointer s off9).1 (readReg s sr)) := rfl

/-! ### Reads, and the pointer of an indirect access -/

/-- The word a read gives does not depend on the statistics. -/
theorem memRead_value_with_stats (s : State) (st : Stats) (a : Word) :
    (memRead { s with stats := st } a).1 = (memRead s a).1 := by
  rw [memRead_value, memRead_value]
  rfl

/-- The state a read leaves is the old one but for the input buffer. -/
theorem eq_with_buffer_of_memRead {s s1 : State} {a w : Word} (h : memRead s a = (w, s1)) :
    s1 = { s with buffer := s1.buffer } := by
  obtain rfl : (memRead s a).2 = s1 := congrArg Prod.snd h
  rw [memRead_state]
  split_ifs <;> rfl

/-- The pointer an indirect access reads, and the state the counted read leaves (R169). -/
theorem readPointer_of_memRead {s s1 : State} {ea : Word} {off9 : BitVec 9}
    (h : memRead s (pcRelative s off9) = (ea, s1)) :
    readPointer s off9 = (ea, { s with
      buffer := s1.buffer
      stats := { s.stats with memReads := s.stats.memReads + 1 } }) := by
  rw [readPointer, h, eq_with_buffer_of_memRead h]
  rfl

/-! ### One load and one store -/

/-- What a load does, after reads that may have changed the input buffer and the statistics: the word read is in DR and
the flags, one read is counted, and the rest stays as it was before those reads. -/
theorem loadFrom_loads (s : State) (b : List Byte) (st : Stats) (dr : Reg) (ea : Word) :
    let t := loadFrom { s with buffer := b, stats := st } dr ea
    readReg t dr = (memRead { s with buffer := b } ea).1 ∧ FlagsDescribe t.flags (readReg t dr) ∧
      t.buffer = (memRead { s with buffer := b } ea).2.buffer ∧
      t.stats = { st with memReads := st.memReads + 1 } ∧ OnlyLoad dr s t := by
  intro t
  have hdr : readReg t dr = (memRead { s with buffer := b } ea).1 :=
    (readReg_loadFrom_same _ dr ea).trans (memRead_value_with_stats { s with buffer := b } st ea)
  refine ⟨hdr, ?_, ?_, ?_, ?_⟩
  · rw [readReg_loadFrom_same, loadFrom_flags]
    exact flagsOf_describe _
  · simp [t]
  · simp [t, loadFrom]
  · exact
      { regs := fun r hr => (readReg_writeResult_ne _ _ hr).trans (congrArg (·.get r) (memRead_regs _ ea))
        pc := memRead_pc _ ea
        memory := rawRead_congr (memRead_mem _ ea)
        runState := memRead_runState _ ea
        output := memRead_output _ ea
        supplier := memRead_supplier _ ea
        supplierCalls := memRead_supplierCalls _ ea }

/-- What a store does to a canonical memory, after reads that may have changed the input buffer and the statistics: one
write through the intercept, one write counted, and the rest stays as it was before those reads. -/
theorem storeTo_stores {s : State} (h : s.mem.wf = true) (b : List Byte) (st : Stats) (ea v : Word) :
    let t := storeTo { s with buffer := b, stats := st } ea v
    Wrote ea v s t ∧ t.buffer = b ∧ t.stats = { st with memWrites := st.memWrites + 1 } ∧ OnlyStore s t := by
  intro t
  obtain ⟨stored, deviceWord, elsewhere, emitted, output, halted, runState⟩ :=
    memWrite_wrote (s := { s with buffer := b, stats := st }) h ea v
  obtain ⟨regs, pc, flags, supplier, supplierCalls⟩ := storeTo_onlyStore { s with buffer := b, stats := st } ea v
  refine ⟨⟨stored, deviceWord, elsewhere, emitted, output, halted, runState⟩, storeTo_buffer .., ?_,
    ⟨regs, pc, flags, supplier, supplierCalls⟩⟩
  simp [t, storeTo]

/-! ### The loads and LEA -/

/-- Settles O10: LD is a load from the PC-relative address. -/
theorem ldLoadsPcRelative : Obligations.LdLoadsPcRelative := by
  refine ⟨fun w hop => ?_, fun dr off9 s => ?_⟩
  · rw [decode, hop]
    rfl
  · rw [← pcRelative_eq_word]
    exact ⟨_, exec_ld dr off9 s, loadFrom_loads s s.buffer s.stats dr _⟩

/-- Settles O11: LDI is a load from the address the pointer read gives, in the state that read left; the count of that
read does not change what the second one gives. -/
theorem ldiLoadsThroughThePointer : Obligations.LdiLoadsThroughThePointer := by
  refine ⟨fun w hop => ?_, fun dr off9 s s1 ea hp => ?_⟩
  · rw [decode, hop]
    rfl
  · rw [← pcRelative_eq_word] at hp
    refine ⟨_, exec_ldi dr off9 s, ?_⟩
    rw [readPointer_of_memRead hp, eq_with_buffer_of_memRead hp]
    exact loadFrom_loads s s1.buffer _ dr ea

/-- Settles O12: LDR is a load from the address computed in the state before it. -/
theorem ldrLoadsBaseOffset : Obligations.LdrLoadsBaseOffset := by
  refine ⟨fun w hop => ?_, fun dr base off6 s => ?_⟩
  · rw [decode, hop]
    rfl
  · rw [← baseOffset_eq_word]
    exact ⟨_, exec_ldr dr base off6 s, loadFrom_loads s s.buffer s.stats dr _⟩

/-- Settles O13: LEA's result is the PC-relative address. -/
theorem leaLoadsTheAddress : Obligations.LeaLoadsTheAddress := by
  refine ⟨fun w hop => ?_, fun dr off9 s => ?_⟩
  · rw [decode, hop]
    rfl
  · refine ⟨_, exec_lea dr off9 s, ?_, writeResult_frame ..⟩
    rw [readReg_writeResult_same, pcRelative_eq_word]

/-! ### The stores -/

/-- Settles O14: ST is a store at the PC-relative address. -/
theorem stStoresPcRelative : Obligations.StStoresPcRelative := by
  refine ⟨fun w hop => ?_, fun sr off9 s hwf => ?_⟩
  · rw [decode, hop]
    rfl
  · rw [← pcRelative_eq_word]
    exact ⟨_, exec_st sr off9 s, storeTo_stores hwf s.buffer s.stats _ _⟩

/-- Settles O15: STI is a store at the address the pointer read gives, in the state that read left. -/
theorem stiStoresThroughThePointer : Obligations.StiStoresThroughThePointer := by
  refine ⟨fun w hop => ?_, fun sr off9 s s1 ea hwf hp => ?_⟩
  · rw [decode, hop]
    rfl
  · rw [← pcRelative_eq_word] at hp
    refine ⟨_, exec_sti sr off9 s, ?_⟩
    rw [readPointer_of_memRead hp]
    exact storeTo_stores hwf s1.buffer _ ea _

/-- Settles O16: STR is a store at the base+offset address. -/
theorem strStoresBaseOffset : Obligations.StrStoresBaseOffset := by
  refine ⟨fun w hop => ?_, fun sr base off6 s hwf => ?_⟩
  · rw [decode, hop]
    rfl
  · rw [← baseOffset_eq_word]
    exact ⟨_, exec_str sr base off6 s, storeTo_stores hwf s.buffer s.stats _ _⟩

end Sys2Proof.Machine

/-! PROOFS of control transfer (spec/42_control.md): the branch, the jumps, the calls with their link, and the two inert
opcodes. -/

namespace Sys2Proof.Machine

/-! ### Frames -/

/-- A change of the PC and the statistics is control alone. -/
theorem onlyControl_with_pc_stats (s : State) (pc : Word) (st : Stats) :
    OnlyControl s { s with pc := pc, stats := st } where
  regs _ := rfl
  flags := rfl
  memory _ := rfl
  world := ⟨rfl, rfl, rfl, rfl, rfl⟩

theorem setPc_onlyControl (s : State) (target : Word) : OnlyControl s (setPc s target) :=
  onlyControl_with_pc_stats s target s.stats

/-- A change of one register, the flags and the PC is that of a register alone. -/
theorem onlyRegister_with_regs_flags_pc (s : State) (dr : Reg) (v pc : Word) (f : Flags) :
    OnlyRegister dr s { s with regs := s.regs.set dr v, flags := f, pc := pc } where
  regs _ hr := RegFile.get_set_ne s.regs v hr
  stats := rfl
  memory _ := rfl
  world := ⟨rfl, rfl, rfl, rfl, rfl⟩

/-! ### BR -/

theorem exec_br_of_taken {n z p : Bool} {s : State} (h : branchTaken n z p s.flags = true) (off9 : BitVec 9) :
    exec (.br n z p off9) s = .next (countTaken (setPc s (pcRelative s off9))) := if_pos h

theorem exec_br_of_not_taken {n z p : Bool} {s : State} (h : branchTaken n z p s.flags = false) (off9 : BitVec 9) :
    exec (.br n z p off9) s = .next (countNotTaken s) := if_neg (Bool.eq_false_iff.mp h)

/-- Where exactly one flag is set, a branch on all three finds it. -/
theorem branchTaken_all {f : Flags} (h : f.exactlyOne = true) : branchTaken true true true f = true := by
  obtain ⟨n, z, p⟩ := f
  revert n z p
  decide

/-- Settles O22, by the branch's condition: taken, not taken; a branch on all flags is the first, one on none the
second. -/
theorem brBranchesOnTheRequestedFlags : Obligations.BrBranchesOnTheRequestedFlags := by
  refine ⟨fun w hop => ?_, fun n z p off9 s h => ?_, fun n z p off9 s h => ?_, fun off9 s h => ?_, fun off9 s => ?_⟩
  · rw [decode, hop]
    rfl
  · exact ⟨_, exec_br_of_taken h off9, pcRelative_eq_word s off9, rfl, onlyControl_with_pc_stats ..⟩
  · exact ⟨_, exec_br_of_not_taken h off9, rfl, rfl, onlyControl_with_pc_stats ..⟩
  · exact ⟨_, exec_br_of_taken (branchTaken_all h) off9, pcRelative_eq_word s off9⟩
  · exact ⟨_, exec_br_never off9 s, rfl⟩

/-! ### JMP and RET -/

theorem exec_jmp (base : Reg) (s : State) : exec (.jmp base) s = .next (setPc s (readReg s base)) := rfl

theorem exec_ret (s : State) : exec .ret s = .next (setPc s (readReg s .r7)) := rfl

/-- Settles O23: both set the PC to a register's value. -/
theorem jmpAndRetJumpThroughARegister : Obligations.JmpAndRetJumpThroughARegister := by
  refine ⟨fun w hop => ?_, fun base s => ?_, fun s => ?_, rfl⟩
  · rw [decode, hop]
    rfl
  · exact ⟨_, exec_jmp base s, rfl, rfl, setPc_onlyControl ..⟩
  · exact ⟨_, exec_ret s, rfl, rfl, setPc_onlyControl ..⟩

/-! ### Calls -/

theorem exec_jsr (off11 : BitVec 11) (s : State) :
    exec (.jsr off11) s = .next (callTo params s (pcRelative s off11)) := rfl

theorem exec_jsrr (base : Reg) (s : State) : exec (.jsrr base) s = .next (callTo params s (readReg s base)) := rfl

theorem execAt_jsr (cfg : Config) (off11 : BitVec 11) (s : State) :
    execAt cfg (.jsr off11) s = .next (callTo cfg s (pcRelative s off11)) := rfl

theorem execAt_jsrr (cfg : Config) (base : Reg) (s : State) :
    execAt cfg (.jsrr base) s = .next (callTo cfg s (readReg s base)) := rfl

/-- Everything a call changes: R7, the flags by `P_LINK_SETS_CC`, the PC (R206, R208). -/
theorem callTo_eq (cfg : Config) (s : State) (target : Word) :
    callTo cfg s target =
      { s with
        regs := s.regs.set .r7 s.pc
        flags := if cfg.linkSetsCc then flagsOf s.pc else s.flags
        pc := target } := by
  unfold callTo writeLink
  split <;> rfl

@[simp] theorem callTo_pc (cfg : Config) (s : State) (target : Word) : (callTo cfg s target).pc = target := rfl

@[simp] theorem readReg_callTo_link (cfg : Config) (s : State) (target : Word) :
    readReg (callTo cfg s target) .r7 = s.pc := by
  rw [callTo_eq]
  rfl

theorem callTo_onlyRegister (cfg : Config) (s : State) (target : Word) :
    OnlyRegister .r7 s (callTo cfg s target) := by
  rw [callTo_eq]
  exact onlyRegister_with_regs_flags_pc ..

theorem callTo_flags_of_linkSetsCc {cfg : Config} (h : cfg.linkSetsCc = true) (s : State) (target : Word) :
    FlagsDescribe (callTo cfg s target).flags s.pc := by
  rw [callTo_eq, h]
  exact flagsOf_describe s.pc

theorem callTo_flags_of_not_linkSetsCc {cfg : Config} (h : cfg.linkSetsCc = false) (s : State) (target : Word) :
    (callTo cfg s target).flags = s.flags := by
  rw [callTo_eq, h]
  rfl

/-! The formats of R104 with the opcode and the form bit, which is bit 11, read as one field. -/

theorem decode_jsr {w : Word} (hw : bits w 11 5 = 0x9#5) : decode w = .jsr (bits w 0 11) := by
  have hform : 0x4#4 ++ 1#1 = bits w 11 5 := hw.symm
  exact decode_of_layout ((Layout.jsr _).of_eq (by
    simp -index (disch := rfl) only [hform, bits_append_bits, bits_all]))

theorem decode_jsrr {w : Word} (hw : bits w 11 5 = 0x8#5) : decode w = .jsrr (regField w 6) := by
  have hform : 0x4#4 ++ 0#1 = bits w 11 5 := hw.symm
  exact decode_of_layout ((Layout.jsrr (bits w 9 2) _ (bits w 0 6)).of_eq (by
    simp -index (disch := rfl) only [hform, toBits_regField, bits_append_bits, bits_all]))

/-- Settles O24: at the spec values and at any others, JSR is a call to the PC-relative address. -/
theorem jsrLinksAndJumps : Obligations.JsrLinksAndJumps := by
  refine ⟨fun _ => decode_jsr, fun off11 s => ?_, fun cfg off11 s => ?_⟩
  · exact ⟨_, exec_jsr off11 s, pcRelative_eq_word s off11, readReg_callTo_link .., callTo_flags_of_linkSetsCc rfl ..,
      callTo_onlyRegister ..⟩
  · exact ⟨_, execAt_jsr cfg off11 s, pcRelative_eq_word s off11, readReg_callTo_link .., callTo_onlyRegister ..,
      (callTo_flags_of_linkSetsCc · ..), (callTo_flags_of_not_linkSetsCc · ..)⟩

/-- Settles O25: at the spec values and at any others, JSRR is a call to the base register's value before the link is
written. -/
theorem jsrrLinksAndJumpsToTheOldBase : Obligations.JsrrLinksAndJumpsToTheOldBase := by
  refine ⟨fun _ => decode_jsrr, fun base s => ?_, fun cfg base s => ?_⟩
  · exact ⟨_, exec_jsrr base s, callTo_pc .., readReg_callTo_link .., callTo_flags_of_linkSetsCc rfl ..,
      callTo_onlyRegister ..⟩
  · exact ⟨_, execAt_jsrr cfg base s, callTo_pc .., readReg_callTo_link .., callTo_onlyRegister ..,
      (callTo_flags_of_linkSetsCc · ..), (callTo_flags_of_not_linkSetsCc · ..)⟩

/-- Settles O27: either call puts the address after it in R7, and RET jumps through R7. -/
theorem returnGoesBackBehindTheCall : Obligations.ReturnGoesBackBehindTheCall := by
  intro i s t u hi h hu
  have hlink : readReg t .r7 = s.pc := by
    obtain ⟨off11, rfl⟩ | ⟨base, rfl⟩ := hi
    · cases h
      exact readReg_callTo_link ..
    · cases h
      exact readReg_callTo_link ..
  exact ⟨_, exec_ret u, hu.trans hlink⟩

/-! ### RTI and the reserved opcode -/

theorem decode_rti {w : Word} (hop : bits w 12 4 = 0x8#4) : decode w = .rti := by
  rw [decode, hop]
  rfl

theorem decode_reserved {w : Word} (hop : bits w 12 4 = 0xD#4) : decode w = .reserved := by
  rw [decode, hop]
  rfl

theorem exec_rti (s : State) : exec .rti s = .next s := rfl

theorem exec_reserved (s : State) : exec .reserved s = .next s := rfl

/-- Settles O26: both words' execution is empty, so a step with one at the PC is its fetch. -/
theorem rtiAndTheReservedOpcodeDoNothing : Obligations.RtiAndTheReservedOpcodeDoNothing := by
  refine ⟨fun _ => decode_rti, fun _ => decode_reserved, fun s => ⟨exec_rti s, exec_reserved s⟩,
    fun s hs hpc hop => ?_⟩
  rw [step_of_fetched hs (memRead_plain _ hpc)]
  obtain hop | hop := hop
  · exact (congrArg (exec · _) (decode_rti hop)).trans (exec_rti _)
  · exact (congrArg (exec · _) (decode_reserved hop)).trans (exec_reserved _)

end Sys2Proof.Machine

/-! PROOFS of the traps (spec/43_trap.md): the vector and its service, the link before it, the input traps with a
character and without, the string traps over the words they read, and the whole step of a blocked trap. -/

namespace Sys2Proof.Machine

/-! ### The vector selects the service -/

theorem decode_trap {w : Word} (hop : bits w 12 4 = 0xF#4) : decode w = decodeTrap (bits w 0 8) := by
  rw [decode, hop]
  rfl

/-- Settles O28: the decoder's last case is the choice by the vector, and TRAP's meaning makes the same choice. -/
theorem trapVectorSelectsTheService : Obligations.TrapVectorSelectsTheService :=
  ⟨fun _ => decode_trap, fun _ => ⟨rfl, rfl, rfl, rfl, rfl, rfl⟩⟩

/-! ### The link of a TRAP -/

theorem trapLink_of_linking {cfg : Config} (h : cfg.trapLinksR7 = true) (s : State) :
    trapLink cfg s = writeResult s .r7 s.pc := if_pos h

theorem trapLink_of_not_linking {cfg : Config} (h : cfg.trapLinksR7 = false) (s : State) : trapLink cfg s = s :=
  if_neg (by simp [h])

@[simp] theorem trapLink_params (s : State) : trapLink params s = s := trapLink_of_not_linking rfl s

/-- All that the link of a TRAP changes: R7 and the flags (R230). -/
theorem trapLink_eq (cfg : Config) (s : State) :
    trapLink cfg s =
      { s with
        regs := if cfg.trapLinksR7 then s.regs.set .r7 s.pc else s.regs
        flags := if cfg.trapLinksR7 then flagsOf s.pc else s.flags } := by
  cases h : cfg.trapLinksR7 with
  | true => exact trapLink_of_linking h s
  | false => exact trapLink_of_not_linking h s

/-- The loops of PUTS and PUTSP depend on the parameters that concern them alone. -/
theorem putsLoop_congr {cfg cfg' : Config} (h : cfg'.statCountTrapIo = cfg.statCountTrapIo) (n : Nat) (a : Word)
    (s : State) : putsLoop cfg' n a s = putsLoop cfg n a s := by
  induction n generalizing a s with
  | zero => rfl
  | succ n ih => simp only [putsLoop, countStringRead, h, ih]

theorem putspLoop_congr {cfg cfg' : Config} (hcount : cfg'.statCountTrapIo = cfg.statCountTrapIo)
    (hzero : cfg'.putspZeroLow = cfg.putspZeroLow) (n : Nat) (a : Word) (s : State) :
    putspLoop cfg' n a s = putspLoop cfg n a s := by
  induction n generalizing a s with
  | zero => rfl
  | succ n ih => simp only [putspLoop, countStringRead, hcount, hzero, ih]

/-! ### A vector that names no service -/

theorem execAt_trap_of_not_service (cfg : Config) {v : BitVec 8} (h : isServiceVector v = false) (s : State) :
    execAt cfg (.trap v) s = unknownTrap cfg v s := by
  obtain ⟨h0, h1, h2, h3, h4, h5⟩ := not_isServiceVector h
  simp [execAt, performTrap, h0, h1, h2, h3, h4, h5]

/-- Settles O29, by the values of `P_UNKNOWN_TRAP`; the machine's is nop, without a link. -/
theorem unknownTrapFollowsItsParameter : Obligations.UnknownTrapFollowsItsParameter := by
  refine ⟨fun v s hv => ?_, fun cfg v s hv => ?_⟩
  · rw [← execAt_params, execAt_trap_of_not_service params hv]
    rfl
  · rw [execAt_trap_of_not_service cfg hv, unknownTrap]
    exact ⟨fun h => by rw [h], fun h => by rw [h]; rfl, fun h => by rw [h]⟩

/-- Settles O33: with the parameter true a service acts on the linked state, in which R0 is the old one; with it false
the service acts on that state as it is. -/
theorem trapLinkComesBeforeTheService : Obligations.TrapLinkComesBeforeTheService := by
  intro cfg s hlink cfg0 s1 hcfg0 hs1
  have hlinked : trapLink cfg s = s1 := by rw [trapLink_of_linking hlink, hs1]; rfl
  have hbare : trapLink cfg0 s1 = s1 := trapLink_of_not_linking (by rw [hcfg0]) s1
  have hcount : cfg0.statCountTrapIo = cfg.statCountTrapIo := by rw [hcfg0]
  have hzero : cfg0.putspZeroLow = cfg.putspZeroLow := by rw [hcfg0]
  have hunknown : cfg0.unknownTrap = cfg.unknownTrap := by rw [hcfg0]
  have hr0 : readReg s .r0 = readReg s1 .r0 := by rw [hs1]; rfl
  refine ⟨?_, ?_, ?_, ?_, fun v hv => ?_⟩
  · simp only [execAt, serviceOut, hlinked, hbare, hr0]
  · simp only [execAt, servicePuts, hlinked, hbare, hr0, putsLoop_congr hcount]
  · simp only [execAt, servicePutsp, hlinked, hbare, hr0, putspLoop_congr hcount hzero]
  · simp only [execAt, serviceHalt, hlinked, hbare]
  · rw [execAt_trap_of_not_service _ hv, execAt_trap_of_not_service _ hv]
    simp only [unknownTrap, serviceHalt, hlinked, hbare, hunknown]

/-! ### OUT and HALT -/

theorem exec_out (s : State) : exec .out s = .next (emit s (lowByte (readReg s .r0))) := rfl

theorem exec_halt (s : State) : exec .halt s = .next (halt s) := rfl

theorem emit_onlyConsole (s : State) (c : Byte) : OnlyConsole s (emit s c) :=
  ⟨fun _ => rfl, rfl, rfl, rfl, fun _ => rfl, rfl, rfl, rfl⟩

/-- Settles O34: OUT is one emission, HALT the change of the run state, after which a step is idle. -/
theorem outEmitsAndHaltHalts : Obligations.OutEmitsAndHaltHalts :=
  ⟨fun s => ⟨_, exec_out s, rfl, rfl, emit_onlyConsole s _⟩, fun s => ⟨_, exec_halt s, rfl, if_pos rfl⟩⟩

/-! ### An input trap that receives a character -/

/-- The state in which an input trap completes that took `c` and wrote `o`: the link is made and the output written
after `take_input()`, then R0 and the flags get the character (R233, R236). -/
def received (cfg : Config) (s : State) (o : List Byte) (c : Byte) : State :=
  receiveChar { trapLink cfg (takeInput s).2 with output := s.output ++ o } c

theorem takeInput_eq_of_fst {s : State} {r : Option Byte} (h : (takeInput s).1 = r) :
    takeInput s = (r, (takeInput s).2) := by rw [← h]

theorem execAt_getc_of_some (cfg : Config) {s : State} {c : Byte} (h : (takeInput s).1 = some c) :
    execAt cfg .getc s = .next (received cfg s [] c) := by
  rw [execAt, serviceGetc, takeInput_eq_of_fst h]
  simp [received, trapLink_eq]

theorem execAt_inChar_of_some (cfg : Config) {s : State} {c : Byte} (h : (takeInput s).1 = some c) :
    execAt cfg .inChar s = .next (received cfg s (cfg.inPrompt ++ [c]) c) := by
  rw [execAt, serviceIn, takeInput_eq_of_fst h]
  simp [received, trapLink_eq, emitAll_eq, emit]

section
variable (cfg : Config) (s : State) (o : List Byte) (c : Byte)

theorem received_regs :
    (received cfg s o c).regs = (if cfg.trapLinksR7 then s.regs.set .r7 s.pc else s.regs).set .r0 (zext c) := by
  simp [received, receiveChar, trapLink_eq]

theorem readReg_received_r0_toNat : (readReg (received cfg s o c) .r0).toNat = c.toNat := by
  simp [readReg, received_regs, zext_toNat]

theorem readReg_received_link :
    readReg (received cfg s o c) .r7 = if cfg.trapLinksR7 then s.pc else readReg s .r7 := by
  rw [readReg, received_regs]
  split <;> rfl

theorem readReg_received_ne {r : Reg} (h0 : r ≠ .r0) (h7 : r ≠ .r7) :
    readReg (received cfg s o c) r = readReg s r := by
  rw [readReg, received_regs, RegFile.get_set_ne _ _ h0]
  split
  · exact RegFile.get_set_ne _ _ h7
  · rfl

theorem received_flags_describe :
    FlagsDescribe (received cfg s o c).flags (readReg (received cfg s o c) .r0) := by
  rw [received, receiveChar, writeResult_flags, readReg_writeResult_same]
  exact flagsOf_describe _

theorem received_output : (received cfg s o c).output = s.output ++ o := rfl

theorem received_pc : (received cfg s o c).pc = s.pc := by simp [received, receiveChar, trapLink_eq]

theorem received_sameMemory : SameMemory s (received cfg s o c) :=
  rawRead_congr (by simp [received, receiveChar, trapLink_eq])

/-- At the spec values, without a link, a completed input trap changes R0, the flags, the output and the input. -/
theorem received_onlyReceived : OnlyReceived s (received params s o c) where
  regs r hr := by
    rw [readReg, received_regs, RegFile.get_set_ne _ _ hr]
    rfl
  pc := received_pc params s o c
  stats := takeInput_stats s
  memory := received_sameMemory params s o c
  runState := takeInput_runState s
  buffer := rfl
  supplier := rfl
  supplierCalls := rfl

end

/-! ### A blocked input trap -/

/-- Where `take_input()` answers nothing it has at most asked the supplier. -/
theorem takeInput_of_none {s : State} (h : (takeInput s).1 = none) :
    takeInput s = (none, { s with
      supplier := (takeInput s).2.supplier
      supplierCalls := (takeInput s).2.supplierCalls }) := by
  rw [takeInput_eq_of_fst h]
  obtain ⟨c, rest, -, e⟩ | ⟨r, rest, -, -, e⟩ | ⟨-, -, e⟩ | ⟨-, -, e⟩ := takeInput_cases s
  · simp [e] at h
  all_goals rw [e]

theorem takeInput_buffer_of_none {s : State} (h : (takeInput s).1 = none) : (takeInput s).2.buffer = s.buffer := by
  rw [takeInput_of_none h]

theorem execAt_inputTrap_of_none (cfg : Config) {i : Instr} (hi : i = .getc ∨ i = .inChar) {s : State}
    (h : (takeInput s).1 = none) : execAt cfg i s = .next (waitInput (takeInput s).2) := by
  obtain rfl | rfl := hi
  · rw [execAt, serviceGetc, takeInput_eq_of_fst h]
  · rw [execAt, serviceIn, takeInput_eq_of_fst h]

theorem waitInput_blocked {s : State} (h : (takeInput s).1 = none) : Blocked s (waitInput (takeInput s).2) where
  regs r := by simp [readReg]
  flags := takeInput_flags s
  pc := by simp
  stats := by simp
  runState := rfl
  memory := rawRead_congr (takeInput_mem s)
  output := takeInput_output s
  buffer := takeInput_buffer_of_none h
  supplier := rfl
  supplierCalls := rfl

/-- An input trap without a character is blocked, at every value of the parameters. -/
theorem execAt_blocked (cfg : Config) {i : Instr} (hi : i = .getc ∨ i = .inChar) {s : State}
    (h : (takeInput s).1 = none) : ∃ t, execAt cfg i s = .next t ∧ Blocked s t :=
  ⟨_, execAt_inputTrap_of_none cfg hi h, waitInput_blocked h⟩

/-- Settles O30, by `take_input()`'s answer; the spec values are those of a machine without the link. -/
theorem getcReceivesACharacterOrWaits : Obligations.GetcReceivesACharacterOrWaits := by
  refine ⟨fun s c hc => ?_, fun s hc => ?_, fun cfg s c hlink hc => ?_, fun cfg s hc => ?_⟩
  · rw [← execAt_params]
    exact ⟨_, execAt_getc_of_some params hc, readReg_received_r0_toNat .., received_flags_describe ..,
      List.append_nil s.output, received_onlyReceived ..⟩
  · simpa only [execAt_params] using execAt_blocked params (.inl rfl) hc
  · have hr7 := readReg_received_link cfg s [] c
    rw [if_pos hlink] at hr7
    exact ⟨_, execAt_getc_of_some cfg hc, hr7, readReg_received_r0_toNat .., received_flags_describe ..,
      List.append_nil s.output, received_pc .., fun _ => readReg_received_ne cfg s _ c, received_sameMemory cfg s _ c⟩
  · exact execAt_blocked cfg (.inl rfl) hc

/-- Settles O31, as GETC, with the prompt and the echo as the output written. -/
theorem inPromptsReceivesAndEchoesOrWaits : Obligations.InPromptsReceivesAndEchoesOrWaits := by
  refine ⟨fun s c hc => ?_, fun s hc => ?_, fun cfg s c hc => ?_, fun cfg s hc => ?_⟩
  · rw [← execAt_params, List.append_assoc]
    exact ⟨_, execAt_inChar_of_some params hc, readReg_received_r0_toNat .., received_flags_describe ..,
      received_output .., received_onlyReceived ..⟩
  · simpa only [execAt_params] using execAt_blocked params (.inr rfl) hc
  · rw [List.append_assoc]
    exact ⟨_, execAt_inChar_of_some cfg hc, readReg_received_link .., readReg_received_r0_toNat ..,
      received_flags_describe .., received_output .., received_pc .., fun _ => readReg_received_ne cfg s _ c,
      received_sameMemory cfg s _ c⟩
  · exact execAt_blocked cfg (.inr rfl) hc

/-! ### The string traps -/

/-- A string's reads leave everything but the input buffer, so with some output written the trap is one of the
console. -/
theorem ReadsString.onlyConsole {s u : State} {a : Word} {ws : List Word} (h : ReadsString s a ws u)
    (o : List Byte) : OnlyConsole s { u with output := o } := by
  rw [h.state]
  exact ⟨fun _ => rfl, rfl, rfl, rfl, fun _ => rfl, rfl, rfl, rfl⟩

theorem exec_puts_of_readsString {s u : State} {ws : List Word} (h : ReadsString s (readReg s .r0) ws u)
    (hlen : ws.length < 65536) :
    exec .puts s = .next { u with output := s.output ++ ws.map lowByte } := by
  rw [exec, execPuts, servicePuts, trapLink_params, putsLoop_of_readsString h hlen]

theorem exec_putsp_of_readsString {s u : State} {ws : List Word} (h : ReadsString s (readReg s .r0) ws u)
    (hlen : ws.length < 65536) :
    exec .putsp s = .next { u with output := s.output ++ ws.flatMap packedPair } := by
  rw [exec, execPutsp, servicePutsp, trapLink_params, putspLoop_of_readsString h hlen]

theorem exec_puts_refused {s : State} (h : ¬∃ ws u, ReadsString s (readReg s .r0) ws u ∧ ws.length < 65536) :
    exec .puts s = .refused .putsNoTerminator := by
  rw [exec, execPuts, servicePuts, trapLink_params]
  split
  next hloop =>
    obtain ⟨ws, u, hlen, hr⟩ := readsString_of_putsLoop hloop
    exact absurd ⟨ws, u, hr, hlen⟩ h
  next => rfl

theorem exec_putsp_refused {s : State} (h : ¬∃ ws u, ReadsString s (readReg s .r0) ws u ∧ ws.length < 65536) :
    exec .putsp s = .refused .putspNoTerminator := by
  rw [exec, execPutsp, servicePutsp, trapLink_params]
  split
  next hloop =>
    obtain ⟨ws, u, hlen, hr⟩ := readsString_of_putspLoop hloop
    exact absurd ⟨ws, u, hr, hlen⟩ h
  next => rfl

/-- Settles O35: PUTS's loop runs along the string the reads meet, and it ends nowhere else. -/
theorem putsWritesTheStringItReads : Obligations.PutsWritesTheStringItReads := by
  refine ⟨fun s u ws hr hlen => ?_, fun s => ⟨exec_puts_refused, ?_⟩⟩
  · exact ⟨_, exec_puts_of_readsString hr hlen, rfl, rfl, hr.onlyConsole _⟩
  · rintro hrefused ⟨ws, u, hr, hlen⟩
    cases hrefused.symm.trans (exec_puts_of_readsString hr hlen)

/-- Settles O36: PUTSP's loop does as PUTS's, with the pair of each word. -/
theorem putspWritesThePackedStringItReads : Obligations.PutspWritesThePackedStringItReads := by
  refine ⟨fun s u ws hr hlen => ?_, fun s => ⟨exec_putsp_refused, ?_⟩⟩
  · exact ⟨_, exec_putsp_of_readsString hr hlen, rfl, rfl, hr.onlyConsole _⟩
  · rintro hrefused ⟨ws, u, hr, hlen⟩
    cases hrefused.symm.trans (exec_putsp_of_readsString hr hlen)

/-- The address of the word `i + 1` of a string is that of the word `i` of its tail. -/
theorem add_ofNat_succ (a : Word) (i : Nat) : a + BitVec.ofNat 16 (i + 1) = a + 1#16 + BitVec.ofNat 16 i := by
  rw [Nat.add_comm, BitVec.ofNat_add, BitVec.add_assoc]

/-- A string in plain memory is read word by word, and its reads leave the state as it is (R61, R76). -/
theorem readsString_of_plain {s : State} {ws : List Word} {a : Word}
    (hwords : ∀ i, (h : i < ws.length) → ws[i] ≠ 0#16 ∧ rawRead s (a + BitVec.ofNat 16 i) = ws[i] ∧
      fetchIntercepted (a + BitVec.ofNat 16 i) = false)
    (hend : rawRead s (a + BitVec.ofNat 16 ws.length) = 0#16)
    (hplain : fetchIntercepted (a + BitVec.ofNat 16 ws.length) = false) : ReadsString s a ws s := by
  induction ws generalizing a with
  | nil =>
    rw [List.length_nil, BitVec.add_zero] at hend hplain
    have hread : memRead s a = (0#16, s) := by rw [memRead_plain s hplain, hend]
    simpa [hread] using ReadsString.done s a (by rw [hread])
  | cons w ws ih =>
    obtain ⟨hw, hfirst, hfirstPlain⟩ := hwords 0 (Nat.succ_pos _)
    rw [BitVec.add_zero] at hfirst hfirstPlain
    have hread : memRead s a = (w, s) := by rw [memRead_plain s hfirstPlain, hfirst]; rfl
    rw [List.length_cons, add_ofNat_succ] at hend hplain
    have hrest : ReadsString s (a + 1#16) ws s := by
      refine ih (fun i hi => ?_) hend hplain
      rw [← add_ofNat_succ]
      exact hwords (i + 1) (Nat.succ_lt_succ hi)
    simpa [hread] using ReadsString.more s a ws s (by rw [hread]; exact hw) (by rw [hread]; exact hrest)

/-- Settles O37: the string traps read such a string, and its reads consume no pending character. -/
theorem stringsInPlainMemoryAreWritten : Obligations.StringsInPlainMemoryAreWritten := by
  intro s ws hlen hwords hend hplain
  have hr := readsString_of_plain hwords hend hplain
  exact ⟨putsWritesTheStringItReads.1 s s ws hr hlen, putspWritesThePackedStringItReads.1 s s ws hr hlen⟩

/-! ### The step of a blocked input trap -/

/-- The state after the fetch at a PC in plain memory: ready, the PC and the instruction count one further (R100). -/
def fetched (s : State) : State :=
  { s with
    runState := .ready
    pc := s.pc + 1#16
    stats := { s.stats with instructions := s.stats.instructions + 1 } }

theorem step_of_plain {s : State} (hs : s.runState ≠ .halted) (hpc : fetchIntercepted s.pc = false) :
    step s = exec (decode (rawRead s s.pc)) (fetched s) :=
  step_of_fetched hs (memRead_plain _ hpc)

/-- `take_input()` concerns the buffer and the supplier alone, so it answers the same before the fetch and after. -/
theorem takeInput_fetched (s : State) : takeInput (fetched s) = ((takeInput s).1, fetched (takeInput s).2) := by
  obtain ⟨c, rest, hb, e⟩ | ⟨r, rest, hb, hs, e⟩ | ⟨hb, hs, e⟩ | ⟨hb, hs, e⟩ := takeInput_cases s
  · rw [e]
    exact takeInput_of_buffer hb
  · rw [e]
    exact takeInput_of_answer hb hs
  · rw [e]
    simp [takeInput, callSupplier, fetched, hb, hs]
  · rw [e]
    exact takeInput_of_no_supplier hb hs

/-- The wait takes back what the fetch added to the PC and the instruction count (R239). -/
theorem waitInput_fetched (s : State) : waitInput (fetched s) = { s with runState := .waitingForInput } := by
  simp [waitInput, uncountInstruction, setPc, fetched]

/-- Settles O40: the trap's wait undoes the fetch, and `take_input()` has at most asked the supplier. -/
theorem blockedTrapStepLeavesOnlyTheWait : Obligations.BlockedTrapStepLeavesOnlyTheWait := by
  intro s hs hpc hi hc
  have htake : takeInput (fetched s) = (none, fetched (takeInput s).2) := by rw [takeInput_fetched, hc]
  rw [step_of_plain hs hpc, exec_inputTrap_of_none hi htake, waitInput_fetched, takeInput_of_none hc]

theorem step_getc_of_pending {s : State} {c : Byte} {rest : List Byte} (hs : s.runState ≠ .halted)
    (hpc : fetchIntercepted s.pc = false) (hi : decode (rawRead s s.pc) = .getc) (hb : s.buffer = c :: rest) :
    step s = .next (received params (fetched s) [] c) := by
  have htake : (takeInput (fetched s)).1 = some c := by rw [takeInput_fetched, takeInput_of_buffer hb]
  rw [step_of_plain hs hpc, hi, ← execAt_params, execAt_getc_of_some params htake]

/-- Settles O41: the blocked step leaves the engine at its GETC, which takes the supplied character at the next step. -/
theorem supplyingACharacterCompletesTheBlockedTrap : Obligations.SupplyingACharacterCompletesTheBlockedTrap := by
  intro s t c hs hpc hi hb hsup hstep
  have htake : takeInput s = (none, s) := takeInput_of_no_supplier hb hsup
  rw [blockedTrapStepLeavesOnlyTheWait s hs hpc (.inl hi) (by rw [htake]), htake] at hstep
  cases hstep
  have hsupplied : hostSupply c { s with runState := .waitingForInput } =
      { s with runState := .ready, buffer := [c] } := by rw [hostSupply, hb]; rfl
  rw [hsupplied]
  have hnext := step_getc_of_pending (s := { s with runState := .ready, buffer := [c] }) nofun hpc hi rfl
  have honly := received_onlyReceived (fetched { s with runState := .ready, buffer := [c] }) [] c
  exact ⟨rfl, _, hnext, readReg_receiveChar .., honly.pc, honly.stats, honly.buffer, List.append_nil s.output,
    honly.runState, honly.regs, honly.memory⟩

end Sys2Proof.Machine

/-! PROOFS of the run-time conditions (spec/60_exceptions.md): no step depends on the statistics or the console output,
what halts an engine or makes it wait, and what is refused. -/

namespace Sys2Proof.Machine

/-! ### A state with another record -/

/-- The state with other statistics and another console output: the two things an engine records and never reads. -/
def withRecord (s : State) (st : Stats) (o : List Byte) : State := { s with stats := st, output := o }

theorem memRead_withRecord (s : State) (st : Stats) (o : List Byte) (a : Word) :
    memRead (withRecord s st o) a = ((memRead s a).1, withRecord (memRead s a).2 st o) := by
  refine Prod.ext ?_ ?_
  · rw [memRead_value, memRead_value]
    rfl
  · rw [memRead_state, memRead_state]
    split_ifs <;> rfl

theorem takeInput_withRecord (s : State) (st : Stats) (o : List Byte) :
    takeInput (withRecord s st o) = ((takeInput s).1, withRecord (takeInput s).2 st o) := by
  obtain ⟨c, rest, hb, e⟩ | ⟨r, rest, hb, hs, e⟩ | ⟨hb, hs, e⟩ | ⟨hb, hs, e⟩ := takeInput_cases s
  · rw [e]
    exact takeInput_of_buffer hb
  · rw [e]
    exact takeInput_of_answer hb hs
  · simp [takeInput, callSupplier, withRecord, hb, hs]
  · rw [e]
    exact takeInput_of_no_supplier hb hs

/-- What a program's write emits: the low byte at DDR, nothing elsewhere (R73, R76). -/
def emittedByWrite (a v : Word) : List Byte := if a = ddrAddr then [lowByte v] else []

theorem memWrite_output (s : State) (a v : Word) : (memWrite s a v).output = s.output ++ emittedByWrite a v := by
  obtain ⟨rfl, e⟩ | ⟨rfl, -, e⟩ | ⟨rfl, -, e⟩ | ⟨hddr, -, e⟩ := memWrite_cases s a v
  · rw [e]; rfl
  · rw [e]; exact (List.append_nil _).symm
  · rw [e]; exact (List.append_nil _).symm
  · rw [e, emittedByWrite, if_neg hddr, List.append_nil]; rfl

theorem memWrite_withRecord (s : State) (st : Stats) (o : List Byte) (a v : Word) :
    memWrite (withRecord s st o) a v = withRecord (memWrite s a v) st (o ++ emittedByWrite a v) := by
  by_cases hddr : a = 0xFE06#16
  · subst hddr
    rfl
  rw [show emittedByWrite a v = [] from if_neg hddr, List.append_nil]
  by_cases hmcr : a = 0xFFFE#16
  · rw [hmcr, memWrite_mcr, memWrite_mcr]
    split_ifs <;> rfl
  · rw [memWrite_stored _ v hddr hmcr, memWrite_stored _ v hddr hmcr]
    rfl

theorem loadFrom_withRecord (s : State) (st : Stats) (o : List Byte) (dr : Reg) (ea : Word) :
    loadFrom (withRecord s st o) dr ea =
      withRecord (loadFrom s dr ea) { st with memReads := st.memReads + 1 } o := by
  rw [loadFrom, memRead_withRecord]
  rfl

theorem readPointer_withRecord (s : State) (st : Stats) (o : List Byte) (off9 : BitVec 9) :
    readPointer (withRecord s st o) off9 =
      ((readPointer s off9).1, withRecord (readPointer s off9).2 { st with memReads := st.memReads + 1 } o) := by
  rw [readPointer, show pcRelative (withRecord s st o) off9 = pcRelative s off9 from rfl, memRead_withRecord]
  rfl

theorem storeTo_withRecord (s : State) (st : Stats) (o : List Byte) (ea v : Word) :
    storeTo (withRecord s st o) ea v =
      withRecord (storeTo s ea v) { st with memWrites := st.memWrites + 1 } (o ++ emittedByWrite ea v) := by
  rw [storeTo, memWrite_withRecord]
  rfl

theorem ReadsString.with_record {s t : State} {a : Word} {ws : List Word} (h : ReadsString s a ws t) (st : Stats)
    (o : List Byte) : ReadsString (withRecord s st o) a ws (withRecord t st o) := by
  induction h with
  | done s a h0 =>
    simpa only [memRead_withRecord] using ReadsString.done (withRecord s st o) a (by rwa [memRead_withRecord])
  | more s a ws t h0 _ ih =>
    simpa only [memRead_withRecord] using ReadsString.more (withRecord s st o) a ws (withRecord t st o)
      (by rwa [memRead_withRecord]) (by rwa [memRead_withRecord])

theorem received_withRecord (cfg : Config) (s : State) (st : Stats) (o cs : List Byte) (c : Byte) :
    received cfg (withRecord s st o) cs c = withRecord (received cfg s cs c) st (o ++ cs) := by
  simp only [received, takeInput_withRecord, trapLink_eq]
  rfl

theorem fetch_withRecord (s : State) (st : Stats) (o : List Byte) :
    fetch params (withRecord s st o) =
      ((fetch params s).1, withRecord (fetch params s).2 { st with instructions := st.instructions + 1 } o) := by
  have hword : (memRead (withRecord { s with runState := .ready } st o) s.pc).1 =
      (memRead { s with runState := .ready } s.pc).1 := by rw [memRead_withRecord]
  refine Prod.ext ?_ ?_
  · exact hword
  · rw [fetch_state, fetch_state]
    rfl

/-! ### Two engines that differ in their record -/

/-- From another record with the output `o`, `r` answers `t` with some statistics and, after `o`, the characters that
`t` has after the output of `s`. -/
def AnswersAlike (s t : State) (o : List Byte) (r : Result) : Prop :=
  ∃ st cs, t.output = s.output ++ cs ∧ r = .next (withRecord t st (o ++ cs))

theorem AnswersAlike.silent {s t : State} {o : List Byte} {r : Result} (st : Stats)
    (hr : r = .next (withRecord t st o)) (ht : t.output = s.output) : AnswersAlike s t o r :=
  ⟨st, [], by simpa using ht, by simpa using hr⟩

theorem AnswersAlike.load (s s1 : State) (st : Stats) (o : List Byte) (dr : Reg) (ea : Word)
    (h : s1.output = s.output) :
    AnswersAlike s (loadFrom s1 dr ea) o (.next (loadFrom (withRecord s1 st o) dr ea)) :=
  .silent _ (congrArg _ (loadFrom_withRecord s1 st o dr ea)) ((memRead_output s1 ea).trans h)

theorem AnswersAlike.store (s s1 : State) (st : Stats) (o : List Byte) (ea v : Word) (h : s1.output = s.output) :
    AnswersAlike s (storeTo s1 ea v) o (.next (storeTo (withRecord s1 st o) ea v)) :=
  ⟨_, emittedByWrite ea v, h ▸ memWrite_output s1 ea v, congrArg _ (storeTo_withRecord s1 st o ea v)⟩

theorem readPointer_output (s : State) (off9 : BitVec 9) : (readPointer s off9).2.output = s.output :=
  memRead_output s _

/-- What a completed input trap writes depends on the character alone. -/
theorem exec_inputTrap_of_some {i : Instr} (hi : i = .getc ∨ i = .inChar) (c : Byte) :
    ∃ cs, ∀ s, (takeInput s).1 = some c → exec i s = .next (received params s cs c) := by
  obtain rfl | rfl := hi
  · exact ⟨_, fun s hc => by rw [← execAt_params, execAt_getc_of_some params hc]⟩
  · exact ⟨_, fun s hc => by rw [← execAt_params, execAt_inChar_of_some params hc]⟩

theorem exec_inputTrap_alike {i : Instr} (hi : i = .getc ∨ i = .inChar) {s t : State} (h : exec i s = .next t)
    (st : Stats) (o : List Byte) : AnswersAlike s t o (exec i (withRecord s st o)) := by
  cases hc : (takeInput s).1 with
  | none =>
    have htake : takeInput (withRecord s st o) = (none, withRecord (takeInput s).2 st o) := by
      rw [takeInput_withRecord, hc]
    rw [exec_inputTrap_of_none hi (takeInput_eq_of_fst hc)] at h
    cases h
    rw [exec_inputTrap_of_none hi htake]
    exact .silent { st with instructions := st.instructions - 1 } rfl (takeInput_output s)
  | some c =>
    have htake : (takeInput (withRecord s st o)).1 = some c := by rw [takeInput_withRecord, hc]
    obtain ⟨cs, hexec⟩ := exec_inputTrap_of_some hi c
    rw [hexec s hc] at h
    cases h
    rw [hexec _ htake, received_withRecord]
    exact ⟨st, cs, rfl, rfl⟩

/-- PUTS writes the string its reads meet, or it is refused where they meet none (R235). -/
theorem exec_puts_cases (s : State) :
    (∃ ws u, ReadsString s (readReg s .r0) ws u ∧ ws.length < 65536 ∧
      exec .puts s = .next { u with output := s.output ++ ws.map lowByte }) ∨
    exec .puts s = .refused .putsNoTerminator := by
  by_cases h : ∃ ws u, ReadsString s (readReg s .r0) ws u ∧ ws.length < 65536
  · obtain ⟨ws, u, hr, hlen⟩ := h
    exact .inl ⟨ws, u, hr, hlen, exec_puts_of_readsString hr hlen⟩
  · exact .inr (exec_puts_refused h)

/-- PUTSP does as PUTS, with the pair of each word (R237). -/
theorem exec_putsp_cases (s : State) :
    (∃ ws u, ReadsString s (readReg s .r0) ws u ∧ ws.length < 65536 ∧
      exec .putsp s = .next { u with output := s.output ++ ws.flatMap packedPair }) ∨
    exec .putsp s = .refused .putspNoTerminator := by
  by_cases h : ∃ ws u, ReadsString s (readReg s .r0) ws u ∧ ws.length < 65536
  · obtain ⟨ws, u, hr, hlen⟩ := h
    exact .inl ⟨ws, u, hr, hlen, exec_putsp_of_readsString hr hlen⟩
  · exact .inr (exec_putsp_refused h)

/-- The string that a string trap's reads meet does not depend on the record. -/
theorem exec_puts_alike {s t : State} (h : exec .puts s = .next t) (st : Stats) (o : List Byte) :
    AnswersAlike s t o (exec .puts (withRecord s st o)) := by
  obtain ⟨ws, u, hr, hlen, e⟩ | e := exec_puts_cases s <;> cases e.symm.trans h
  exact ⟨st, ws.map lowByte, rfl, exec_puts_of_readsString (hr.with_record st o) hlen⟩

theorem exec_putsp_alike {s t : State} (h : exec .putsp s = .next t) (st : Stats) (o : List Byte) :
    AnswersAlike s t o (exec .putsp (withRecord s st o)) := by
  obtain ⟨ws, u, hr, hlen, e⟩ | e := exec_putsp_cases s <;> cases e.symm.trans h
  exact ⟨st, ws.flatMap packedPair, rfl, exec_putsp_of_readsString (hr.with_record st o) hlen⟩

theorem exec_br_alike {n z p : Bool} {off9 : BitVec 9} {s t : State} (h : exec (.br n z p off9) s = .next t)
    (st : Stats) (o : List Byte) : AnswersAlike s t o (exec (.br n z p off9) (withRecord s st o)) := by
  cases hb : branchTaken n z p s.flags with
  | true =>
    rw [exec_br_of_taken hb] at h
    cases h
    exact .silent { st with branchesTaken := st.branchesTaken + 1 }
      (exec_br_of_taken (s := withRecord s st o) hb off9) rfl
  | false =>
    rw [exec_br_of_not_taken hb] at h
    cases h
    exact .silent { st with branchesNotTaken := st.branchesNotTaken + 1 }
      (exec_br_of_not_taken (s := withRecord s st o) hb off9) rfl

theorem exec_out_alike (s : State) (st : Stats) (o : List Byte) :
    AnswersAlike s (emit s (lowByte (readReg s .r0))) o (exec .out (withRecord s st o)) := ⟨st, _, rfl, rfl⟩

theorem exec_halt_alike (s : State) (st : Stats) (o : List Byte) :
    AnswersAlike s (halt s) o (exec .halt (withRecord s st o)) := .silent st rfl rfl

/-- The service of a TRAP's vector is chosen without the record. -/
theorem exec_trap_alike {v : BitVec 8} {s t : State} (h : exec (.trap v) s = .next t) (st : Stats)
    (o : List Byte) : AnswersAlike s t o (exec (.trap v) (withRecord s st o)) := by
  obtain ⟨rfl, e⟩ | ⟨rfl, e⟩ | ⟨rfl, e⟩ | ⟨rfl, e⟩ | ⟨rfl, e⟩ | ⟨rfl, e⟩ | ⟨hne, e⟩ := exec_trap_cases v s
  · exact exec_inputTrap_alike (.inl rfl) (e ▸ h) st o
  · cases h; exact exec_out_alike s st o
  · exact exec_puts_alike (e ▸ h) st o
  · exact exec_inputTrap_alike (.inr rfl) (e ▸ h) st o
  · exact exec_putsp_alike (e ▸ h) st o
  · cases h; exact exec_halt_alike s st o
  · rw [e] at h
    cases h
    exact .silent st (by simpa [hne] using exec_trap_cases v (withRecord s st o)) rfl

/-- Executing an instruction with another record appends the same characters and answers the same state otherwise. -/
theorem exec_alike {i : Instr} {s t : State} (h : exec i s = .next t) (st : Stats) (o : List Byte) :
    AnswersAlike s t o (exec i (withRecord s st o)) := by
  cases i with
  | addReg | addImm | andReg | andImm | notReg | lea | jmp | ret | jsr | jsrr | rti | reserved =>
    cases h; exact .silent st rfl rfl
  | br => exact exec_br_alike h st o
  | ld | ldr => cases h; exact .load s s st o _ _ rfl
  | ldi dr off9 =>
    cases h
    rw [exec_ldi, readPointer_withRecord]
    exact .load s _ _ o dr _ (readPointer_output s off9)
  | st | str => cases h; exact .store s s st o _ _ rfl
  | sti sr off9 =>
    cases h
    rw [exec_sti, readPointer_withRecord]
    exact .store s _ _ o _ _ (readPointer_output s off9)
  | trap => exact exec_trap_alike h st o
  | getc => exact exec_inputTrap_alike (.inl rfl) h st o
  | inChar => exact exec_inputTrap_alike (.inr rfl) h st o
  | puts => exact exec_puts_alike h st o
  | putsp => exact exec_putsp_alike h st o
  | out => cases h; exact exec_out_alike s st o
  | halt => cases h; exact exec_halt_alike s st o

/-- Settles O53: the fetch reads the same word with any record, and the instruction then executes alike. -/
theorem statisticsAndOutputInfluenceNoStep : Obligations.StatisticsAndOutputInfluenceNoStep := by
  intro s t st o h
  change AnswersAlike s t o (step (withRecord s st o))
  obtain ⟨hs, rfl⟩ | ⟨hs, h⟩ := step_next_cases h
  · exact .silent st (if_pos hs) rfl
  · rw [step, if_neg (show (withRecord s st o).runState ≠ .halted from hs), fetch_withRecord]
    obtain ⟨st', cs, hout, hexec⟩ := exec_alike h { st with instructions := st.instructions + 1 } o
    exact ⟨st', cs, by rw [hout, fetch_output], hexec⟩

/-! ### What halts an engine, and what makes it wait -/

/-- A write halts a ready engine exactly where it is at MCR and clears bit 15 (R75). -/
theorem memWrite_halted_iff {s : State} (hs : s.runState = .ready) (a v : Word) :
    (memWrite s a v).runState = .halted ↔ a = 0xFFFE#16 ∧ v.getLsbD 15 = false := by
  by_cases hmcr : a = 0xFFFE#16
  · rw [hmcr, memWrite_mcr]
    cases v.getLsbD 15 <;> simp [hs]
  · obtain ⟨-, e⟩ | ⟨h, -⟩ | ⟨h, -⟩ | ⟨-, -, e⟩ := memWrite_cases s a v
    · simp [e, hs, hmcr]
    · exact absurd h hmcr
    · exact absurd h hmcr
    · simp [e, hs, hmcr]

/-- Settles O51, by the effects of an instruction: the run state is that of the write, of the wait, of the halt, or
unchanged. -/
theorem onlyTheseEventsHaltOrWait : Obligations.OnlyTheseEventsHaltOrWait := by
  intro i s t hs h
  cases exec_effect h with
  | result _ _ _ _ _ hi | control _ _ hi | console _ _ hi => simp [hs, hi.store, hi.haltTrap, hi.inputTrap]
  | received c o hi hc => simp [hs, hi.store, hi.haltTrap, hc]
  | blocked hi hc => simp [hi.store, hi.haltTrap, hi.inputTrap, hc]
  | wrote a v st b hi =>
    have hwait : (memWrite s a v).runState ≠ .waitingForInput := memWrite_not_waiting (by simp [hs]) a v
    simp [memWrite_halted_iff hs, hwait, hi.store, hi.haltTrap, hi.inputTrap]
  | halted hi => simp [hi.haltTrap, hi.inputTrap]

/-! ### What is refused -/

theorem exec_inputTrap_next {i : Instr} (hi : i = .getc ∨ i = .inChar) (s : State) : ∃ t, exec i s = .next t := by
  cases hc : (takeInput s).1 with
  | none => exact ⟨_, exec_inputTrap_of_none hi (takeInput_eq_of_fst hc)⟩
  | some c =>
    obtain ⟨cs, hexec⟩ := exec_inputTrap_of_some hi c
    exact ⟨_, hexec s hc⟩

/-- Of the well-formed instructions, PUTS and PUTSP alone can be refused (R262). -/
theorem exec_next_or_refused {i : Instr} (hwf : i.WellFormed) (s : State) :
    (∃ t, exec i s = .next t) ∨
      ((i = .puts ∧ exec i s = .refused .putsNoTerminator) ∨
        (i = .putsp ∧ exec i s = .refused .putspNoTerminator)) := by
  cases i with
  | addReg | addImm | andReg | andImm | notReg | lea | jmp | ret | jsr | jsrr | ld | ldi | ldr | st | sti | str
  | rti | reserved | out | halt => exact .inl ⟨_, rfl⟩
  | br n z p off9 =>
    cases hb : branchTaken n z p s.flags with
    | true => exact .inl ⟨_, exec_br_of_taken hb off9⟩
    | false => exact .inl ⟨_, exec_br_of_not_taken hb off9⟩
  | trap v =>
    have hv : isServiceVector v = false := by simpa [Instr.WellFormed, Instr.wf] using hwf
    exact .inl ⟨s, unknownTrapFollowsItsParameter.1 v s hv⟩
  | getc => exact .inl (exec_inputTrap_next (.inl rfl) s)
  | inChar => exact .inl (exec_inputTrap_next (.inr rfl) s)
  | puts => exact (exec_puts_cases s).imp (fun ⟨_, _, _, _, e⟩ => ⟨_, e⟩) fun e => .inl ⟨rfl, e⟩
  | putsp => exact (exec_putsp_cases s).imp (fun ⟨_, _, _, _, e⟩ => ⟨_, e⟩) fun e => .inr ⟨rfl, e⟩

/-- Settles O52: a halted engine's step answers its own state, and every decoded instruction is well-formed. -/
theorem onlyStringTrapsAreRefused : Obligations.OnlyStringTrapsAreRefused := by
  intro s
  by_cases hs : s.runState = .halted
  · exact .inl ⟨s, if_pos hs⟩
  · rw [step, if_neg hs]
    exact exec_next_or_refused (wf_decode _) _

end Sys2Proof.Machine

/-! PROOFS of the host's operations (spec/70_reset_and_hazards.md): the image a load installs, what a run returns and
how it unfolds, the host's step, reset, and the supply of a character. -/

namespace Sys2Proof.Machine

/-! ### Loading an image -/

/-- Installing an image concerns the memory array alone (R291, R292). -/
theorem installWords_eq (a : Word) (ws : List Word) (s : State) :
    installWords a ws s = { s with mem := (installWords a ws s).mem } := by
  induction ws generalizing a s with
  | nil => rfl
  | cons w ws ih => exact ih (a + 1#16) (rawWrite s a w)

theorem installWords_wf {s : State} (h : s.mem.wf = true) (a : Word) (ws : List Word) :
    (installWords a ws s).mem.wf = true := by
  induction ws generalizing a s with
  | nil => exact h
  | cons w ws ih => exact ih (rawWrite_wf h a w) (a + 1#16)

/-- A word at which no word of the image lands is kept. -/
theorem rawRead_installWords_ne {a b : Word} {ws : List Word} (s : State)
    (h : ∀ i < ws.length, b ≠ a + BitVec.ofNat 16 i) : rawRead (installWords a ws s) b = rawRead s b := by
  induction ws generalizing a s with
  | nil => rfl
  | cons w ws ih =>
    have hfirst : b ≠ a := by simpa using h 0 (Nat.succ_pos _)
    have hrest : ∀ i < ws.length, b ≠ a + 1#16 + BitVec.ofNat 16 i := fun i hi => by
      rw [← add_ofNat_succ]
      exact h (i + 1) (Nat.succ_lt_succ hi)
    exact (ih _ hrest).trans (rawRead_rawWrite_ne s w hfirst)

/-- The word of an image that is the last to land at its address is the one found there. -/
theorem rawRead_installWords_last {a : Word} {ws : List Word} {s : State} (hwf : s.mem.wf = true) {i : Nat}
    (hi : i < ws.length)
    (hlast : ∀ j, i < j → j < ws.length → a + BitVec.ofNat 16 j ≠ a + BitVec.ofNat 16 i) :
    rawRead (installWords a ws s) (a + BitVec.ofNat 16 i) = ws[i] := by
  induction ws generalizing a s i with
  | nil => cases hi
  | cons w ws ih =>
    cases i with
    | zero =>
      rw [BitVec.add_zero] at hlast ⊢
      have hkept : ∀ j < ws.length, a ≠ a + 1#16 + BitVec.ofNat 16 j := fun j hj => by
        rw [← add_ofNat_succ]
        exact (hlast (j + 1) (Nat.succ_pos j) (Nat.succ_lt_succ hj)).symm
      exact (rawRead_installWords_ne _ hkept).trans (rawRead_rawWrite_same hwf a w)
    | succ i =>
      rw [add_ofNat_succ]
      refine ih (rawWrite_wf hwf a w) (Nat.lt_of_succ_lt_succ hi) fun j hij hj => ?_
      rw [← add_ofNat_succ, ← add_ofNat_succ]
      exact hlast (j + 1) (Nat.succ_lt_succ hij) (Nat.succ_lt_succ hj)

/-- Settles O55: the image is installed word by word, and a load sets the PC and the run state besides. -/
theorem loadInstallsTheImage : Obligations.LoadInstallsTheImage := by
  intro origin ws s hwf
  refine ⟨fun i hi hlast => ?_, fun a ha => rawRead_installWords_ne s ha, (installWords origin ws s).mem,
    installWords_eq origin ws s, installWords_wf hwf origin ws, ?_⟩
  · exact rawRead_installWords_last hwf hi fun j hij hj => mt (BitVec.add_right_inj origin).1 (hlast j hij hj)
  · rw [hostLoad, installWords_eq]
    rfl

/-! ### Runs -/

section
variable {next : State → Result} {budget steps : Nat} {s t : State}

/-- The loop looks for the halt first, whatever the budget (R303). -/
theorem runLoop_of_halted (hs : s.runState = .halted) :
    runLoop next budget steps s = .next (s, ⟨true, steps, false⟩) := by
  cases budget with
  | zero => exact if_pos hs
  | succ budget => exact if_pos hs

theorem runLoop_no_budget (hs : s.runState ≠ .halted) :
    runLoop next 0 steps s = .next (s, ⟨false, steps, decide (s.runState = .waitingForInput)⟩) := if_neg hs

theorem runLoop_of_blocked (hs : s.runState ≠ .halted) (hnext : next s = .next t)
    (ht : t.runState = .waitingForInput) :
    runLoop next (budget + 1) steps s = .next (t, ⟨false, steps, true⟩) := by
  simp [runLoop, hs, hnext, ht]

theorem runLoop_of_counted (hs : s.runState ≠ .halted) (hnext : next s = .next t)
    (ht : t.runState ≠ .waitingForInput) :
    runLoop next (budget + 1) steps s = runLoop next budget (steps + 1) t := by
  simp [runLoop, hs, hnext, ht]

/-- A loop that had counted one step more returns one step more. -/
theorem runLoop_succ_steps {r : RunResult} (h : runLoop next budget steps s = .next (t, r)) :
    runLoop next budget (steps + 1) s = .next (t, { r with steps := r.steps + 1 }) := by
  fun_induction runLoop next budget steps s with
  | case1 steps s hs | case3 budget steps s hs => cases h; exact runLoop_of_halted hs
  | case2 steps s hs => cases h; exact runLoop_no_budget hs
  | case4 budget steps s hs u hnext hu => cases h; exact runLoop_of_blocked hs hnext hu
  | case5 budget steps s hs u hnext hu ih => rw [runLoop_of_counted hs hnext hu, ih h]
  | case6 | case7 => cases h

/-- What a run that ends in `t` returns, with the most steps it can have counted: its flags say the run state, and
where neither is set the steps ran out. -/
structure RunEnded (limit : Nat) (t : State) (r : RunResult) : Prop where
  completed : r.completed = true ↔ t.runState = .halted
  waiting : r.waitingForInput = true ↔ t.runState = .waitingForInput
  bounded : r.steps ≤ limit
  exhausted : r.completed = false → r.waitingForInput = false → r.steps = limit

theorem runLoop_ended {r : RunResult} (h : runLoop next budget steps s = .next (t, r)) :
    RunEnded (steps + budget) t r := by
  fun_induction runLoop next budget steps s with
  | case1 steps s hs | case3 budget steps s hs =>
    cases h; exact ⟨by simp [hs], by simp [hs], Nat.le_add_right .., nofun⟩
  | case2 steps s hs => cases h; exact ⟨by simp [hs], decide_eq_true_iff, Nat.le_refl _, fun _ _ => rfl⟩
  | case4 budget steps s hs u hnext hu =>
    cases h; exact ⟨by simp [hu], by simp [hu], Nat.le_add_right .., nofun⟩
  | case5 budget steps s hs u hnext hu ih =>
    rw [← Nat.succ_add_eq_add_succ]
    exact ih h
  | case6 | case7 => cases h

end

theorem hostRun_of_halted (n : Int) {s : State} (hs : s.runState = .halted) :
    hostRun n s = .next (s, ⟨true, 0, false⟩) := runLoop_of_halted hs

theorem hostRun_no_budget {n : Int} {s : State} (hn : n ≤ 0) (hs : s.runState ≠ .halted) :
    hostRun n s = .next (s, ⟨false, 0, decide (s.runState = .waitingForInput)⟩) := by
  rw [hostRun, Int.toNat_of_nonpos hn, runLoop_no_budget hs]

/-- Settles O57: the loop's result says how it ended, whatever state it ended in. -/
theorem runReturnsWhatEndedIt : Obligations.RunReturnsWhatEndedIt := by
  refine ⟨fun n s t r h => ?_, fun n s hn => ?_, fun n s => hostRun_of_halted n⟩
  · obtain ⟨hcompleted, hwaiting, hbounded, hexhausted⟩ := runLoop_ended h
    rw [Nat.zero_add] at hbounded hexhausted
    exact ⟨hcompleted, hwaiting, hbounded, hexhausted⟩
  · by_cases hs : s.runState = .halted
    · exact ⟨_, hostRun_of_halted n hs, rfl⟩
    · exact ⟨_, hostRun_no_budget hn hs, rfl⟩

/-- Settles O58: each case is one unfolding of the loop; the steps of the rest are those of a run of its own and the one
counted before. -/
theorem runIsStepThenRun : Obligations.RunIsStepThenRun := by
  refine ⟨fun n s => hostRun_of_halted n, fun n s => hostRun_no_budget, ?_, ?_⟩
  · intro n s t hn hs hstep ht
    obtain ⟨budget, hbudget⟩ := Nat.exists_eq_add_one.2 (Int.pos_iff_toNat_pos.1 hn)
    rw [hostRun, hbudget, runLoop_of_blocked hs hstep ht]
  · intro n s t u r hs hstep ht hrun
    have hbudget : ((n : Int) + 1).toNat = n + 1 := rfl
    rw [hostRun, hbudget, runLoop_of_counted hs hstep ht]
    exact runLoop_succ_steps hrun

/-! ### The host's step -/

theorem reportStep_next_iff {r : Result} {t : State} {b : Bool} :
    reportStep r = .next (t, b) ↔ r = .next t ∧ decide (t.runState = .ready) = b := by
  cases r with
  | next u =>
    constructor
    · intro h; cases h; exact ⟨rfl, rfl⟩
    · rintro ⟨h, rfl⟩; cases h; rfl
  | fault f => cases f
  | refused r => exact ⟨nofun, nofun⟩

/-- The fetch of a waiting engine makes it ready first, so its step is the retry of the trap (R100, R301). -/
theorem step_of_waiting {s : State} (hs : s.runState = .waitingForInput) :
    step s = step { s with runState := .ready } := by
  rw [step, if_neg (by simp [hs])]
  rfl

/-- Settles O39: the host's step reports the run state of the state that the step answers. -/
theorem hostStepReportsStillRunnable : Obligations.HostStepReportsStillRunnable := by
  refine ⟨fun s hs => ?_, fun s t b h => ?_, fun s hs => congrArg reportStep (step_of_waiting hs)⟩
  · exact reportStep_next_iff.2 ⟨if_pos hs, by simp [hs]⟩
  · obtain ⟨hstep, rfl⟩ := reportStep_next_iff.1 h
    exact ⟨hstep, decide_eq_true_iff⟩

/-! ### Reset and supply -/

theorem readReg_reset (r : Reg) : readReg State.reset r = 0#16 := by cases r <;> rfl

theorem rawRead_reset (a : Word) : rawRead State.reset a = 0#16 := rfl

/-- Settles O54: but for the supplier and the count of its calls, the engine is in the reset state. -/
theorem resetZeroesAllButTheSupplier : Obligations.ResetZeroesAllButTheSupplier :=
  ⟨fun _ => ⟨readReg_reset, rawRead_reset, rfl, rfl, rfl, rfl, rfl, rfl, rfl⟩, rfl, rfl⟩

/-- KBSR is ready wherever a character is pending (R69). -/
theorem memRead_kbsr_of_pending {s : State} (h : s.buffer ≠ []) : (memRead s 0xFE00#16).1 = 0x8000#16 := by
  rw [memRead_kbsr]
  exact if_neg h

theorem hostSupply_runState_of_halted (c : Byte) {s : State} (hs : s.runState = .halted) :
    (hostSupply c s).runState = .halted := by
  simp [hostSupply, hs]

/-- A ready engine stays ready, and a waiting one becomes ready (R305). -/
theorem hostSupply_runState_of_not_halted (c : Byte) {s : State} (hs : s.runState ≠ .halted) :
    (hostSupply c s).runState = .ready := by
  cases h : s.runState with
  | ready => simp [hostSupply, h]
  | waitingForInput => simp [hostSupply, h]
  | halted => exact absurd h hs

/-- Settles O56: supply concerns the buffer and the run state alone, and leaves a character pending. -/
theorem supplyAppendsAndWakes : Obligations.SupplyAppendsAndWakes := by
  intro c s
  have hpending : (hostSupply c s).buffer ≠ [] := List.append_ne_nil_of_right_ne_nil s.buffer (List.cons_ne_nil c [])
  exact ⟨_, rfl, rfl, memRead_kbsr_of_pending hpending, hostSupply_runState_of_halted c,
    hostSupply_runState_of_not_halted c, rfl⟩

end Sys2Proof.Machine

/-! PROOF of the worked examples' words (spec/40_operate.md to 43_trap.md), each read by its format. -/

namespace Sys2Proof

/-- Settles O4: each word is its format's fields, one after another, with its own values in the bits of R109: ones in
0x165A, 0xCFFF and 0xFF25, zeros in 0x98C0, where the assembler writes the opposite. -/
theorem workedExampleWordsDecode : Obligations.WorkedExampleWordsDecode :=
  ⟨decode_of_layout (.addImm .r2 .r1 0b11101),
    decode_of_layout (.addReg .r3 .r1 0b11 .r2),
    decode_of_layout (.andImm .r0 .r1 7),
    decode_of_layout (.notReg .r4 .r3 0),
    decode_of_layout (.br false true false 2),
    decode_of_layout (.jump 0b111 .r7 0x3F),
    decode_of_layout (.jsr 3),
    decode_of_layout (.jsrr 0 .r3 0),
    decode_of_layout (.ld .r1 2),
    decode_of_layout (.ldi .r0 1),
    decode_of_layout (.ldr .r3 .r2 0b111111),
    decode_of_layout (.lea .r0 2),
    decode_of_layout (.st .r1 1),
    decode_of_layout (.sti .r0 1),
    decode_of_layout (.str .r4 .r5 3),
    decode_of_layout (.rti 0),
    decode_of_layout (.reserved 0x123),
    decode_of_layout (.trap 0 0x26),
    decode_of_layout (.trap 0xF 0x25)⟩

end Sys2Proof
